-- ==== Sys2Proof/Word.lean ====
section
/-! DEFINITION. The word types of the core (spec/00_scope.md R6, R8): every register, memory cell and ALU operand is
one unsigned 8-bit value. -/

namespace Sys2Proof

/-- An unsigned 8-bit value (00_scope.md R6, R8). -/
abbrev Byte := BitVec 8

/-- The index of one of the eight registers R0 to R7 (10_state.md R20). -/
abbrev RegIndex := Fin 8

end Sys2Proof
end

