-- ==== Sys2Proof/Config.lean ====
section
/-! DEFINITION. What is fixed for the machine (00_scope.md R6) and the one parameter the spec leaves open (R7, `R_INIT`). -/

namespace Sys2Proof

/-- Memory holds 256 bytes, addresses 0 to 255 (00_scope.md R6, 20_memory.md R50). -/
def Config.memSize : Nat := 256

/-- What a byte of memory that nothing has written reads as: memory is "zero-initialized" (20_memory.md R59). -/
def Config.unlistedByte : Byte := 0x00#8

/-- The reset value of R7, the stack pointer (10_state.md R24). -/
def Config.spReset : Byte := 0xF4#8

/-- DESIGN CHOICE (unsafe, log entry 1): the values of R0 to R6 in `State.reset`. The spec leaves `R_INIT` open
(10_state.md R24, decision D4) and says to assume no value, so statements about reset quantify over
`State.resetWith` instead of using this one. -/
def Config.rInit : Fin 7 → Byte := fun _ => 0x00#8

end Sys2Proof
end

