-- ==== Sys2Proof/Machine/State.lean ====
section
/-! DEFINITION. The architectural state, whole (10_state.md R40, R49), as plain data, and the state after reset
(70_reset_and_hazards.md R260). -/

namespace Sys2Proof.Machine

/-- The flags register `FL`: Equal, Greater, Less (10_state.md R31). Bit positions are `Flags.toBits` in Flags.lean. -/
structure Flags where
  e : Bool
  g : Bool
  l : Bool
deriving DecidableEq, Repr

/-- The run state (10_state.md R36). -/
inductive RunState where
  | running | halted | faulted
deriving DecidableEq, Repr

/-- The execution faults of the taxonomy (60_exceptions.md R230, R232 to R234). -/
inductive FaultKind where
  | memoryOutOfBounds | unknownOpcode | unsupportedALUOperation
deriving DecidableEq, Repr

/-- What a fault leaves for the host (10_state.md R37): its kind, the pc of the faulting step, and a context value (the
opcode byte, the address out of range, or the operand byte). -/
structure FaultRecord where
  kind : FaultKind
  pc : Nat
  context : Nat
deriving DecidableEq, Repr

/-- Memory: (address, byte) pairs in the canonical form `Memory.wf` (Ops.lean); an address not listed reads
`Config.unlistedByte`. -/
abbrev Memory := List Host.Cell

/-- Everything that survives from one step to the next (10_state.md R40). -/
structure State where
  /-- R0 to R7; R7 is the stack pointer (R20, R22). -/
  regs : Vector Byte 8
  /-- The program counter, an integer in [0, 256] (R27; log entry 3). -/
  pc : Nat
  /-- The flags register `FL` (R31). -/
  fl : Flags
  /-- The run state `state` (R36). -/
  runState : RunState
  /-- The fault record (R37). -/
  faultRecord : Option FaultRecord
  /-- The output log, oldest byte first (R35). -/
  out : List Byte
  /-- The 256 bytes of memory (20_memory.md R50). -/
  mem : Memory
deriving DecidableEq, Repr

/-- Why `step` has no next state. An execution fault of the spec is NOT one of these: taking it is a next state
(60_exceptions.md R231; log entry 2). -/
inductive Fault where
  /-- Raised by `step` alone, in a HALTED state: terminal, "no further steps occur" (10_state.md R36). Safe. -/
  | coreHalted
  /-- Raised by `step` alone, in a FAULTED state: terminal, "no further steps occur" (10_state.md R36). Safe. -/
  | coreFaulted
deriving DecidableEq, Repr

/-- Why an instruction has no meaning. -/
inductive Refusal where
  /-- Raised by an arm of `exec` whose instruction has no meaning yet. Safe. No arm raises it. -/
  | notModelled (mnemonic : String)
deriving DecidableEq, Repr

/-- The state after reset for a given `R_INIT` (70_reset_and_hazards.md R260). The spec leaves `R_INIT` open, one value
per register R0 to R6, and asks claims to hold for every one (10_state.md R24). RUNNING is the value of R36 once `run`
starts; that it stands here before `run` is log entry 8 (DEDUCED). -/
def State.resetWith (rInit : Fin 7 → Byte) : State where
  regs := #v[rInit 0, rInit 1, rInit 2, rInit 3, rInit 4, rInit 5, rInit 6, Config.spReset]
  pc := 0
  fl := ⟨false, false, false⟩
  runState := .running
  faultRecord := none
  out := []
  mem := []

/-- The one reset state the interface needs: R0 to R6 at the DESIGN CHOICE of log entry 1. -/
def State.reset : State := State.resetWith Config.rInit

end Sys2Proof.Machine
end

