-- ==== Sys2Proof/Machine/Ops.lean ====
section
/-! DEFINITION. The named operations over registers, memory, program counter, stack and output, and taking a fault
(10_state.md, 20_memory.md, 42_stack.md, 60_exceptions.md). -/

namespace Sys2Proof.Machine

/-- What `step` and every meaning answer. -/
abbrev StepOutcome := Host.Outcome State Fault Refusal

/-- A fault being raised: its kind and context (00_scope.md R10, `raise F(info)`). -/
structure Raise where
  kind : FaultKind
  context : Nat
deriving DecidableEq, Repr

/-- Taking an execution fault (60_exceptions.md R231): the run state and the fault record are written, nothing else. The
record's pc is the pc of the faulting step, which `s` still holds. -/
def State.raise (s : State) (r : Raise) : State :=
  { s with runState := .faulted, faultRecord := some ⟨r.kind, s.pc, r.context⟩ }

/-- Go on with `k` when `x` succeeds; take the fault in `s`, the state before the instruction, when it raises one. -/
def State.orFault {α : Type} (s : State) (x : Except Raise α) (k : α → StepOutcome) : StepOutcome :=
  match x with
  | .ok a => k a
  | .error r => .next (s.raise r)

/-- Read register `q` (10_state.md R21). -/
def State.reg (s : State) (q : RegIndex) : Byte := s.regs[q]

/-- Write register `q` (10_state.md R21). The value is a byte: whoever computes it has taken it modulo 256. -/
def State.setReg (s : State) (q : RegIndex) (v : Byte) : State := { s with regs := s.regs.set q v }

/-- R7, the stack pointer (10_state.md R22). -/
def spReg : RegIndex := 7

/-- The stack pointer's value. -/
def State.sp (s : State) : Byte := s.reg spReg

/-- The byte at an address: the listed one, or what an unlisted address reads as (20_memory.md R59). -/
def Memory.read : Memory → Nat → Byte
  | [], _ => Config.unlistedByte
  | c :: m, a => if c.1 = a then c.2 else Memory.read m a

/-- Drop whatever is listed at an address. -/
def Memory.erase (m : Memory) (a : Nat) : Memory := m.filter fun c => c.1 != a

/-- List a byte in front of the first higher address. -/
def Memory.insert : Memory → Nat → Byte → Memory
  | [], a, v => [(a, v)]
  | c :: m, a, v => if a < c.1 then (a, v) :: c :: m else c :: Memory.insert m a v

/-- Store a byte, keeping the canonical form: writing what an unlisted address reads as lists nothing. -/
def Memory.write (m : Memory) (a : Nat) (v : Byte) : Memory :=
  if v = Config.unlistedByte then m.erase a else (m.erase a).insert a v

/-- The canonical form: addresses strictly rising and in the address space, no entry equal to what an unlisted address
reads as (log entry 7). -/
abbrev Memory.wf (m : Memory) : Prop :=
  m.Pairwise (fun c d => c.1 < d.1) ∧ ∀ c ∈ m, c.1 < Config.memSize ∧ c.2 ≠ Config.unlistedByte

/-- `MemRead(addr, 1)` (20_memory.md R51). -/
def memRead (m : Memory) (addr : Nat) : Except Raise Byte :=
  if addr < Config.memSize then .ok (m.read addr) else .error ⟨.memoryOutOfBounds, addr⟩

/-- `MemWrite(addr, 1, v)`: stores `v mod 256` (20_memory.md R52). -/
def memWrite (m : Memory) (addr v : Nat) : Except Raise Memory :=
  if addr < Config.memSize then .ok (m.write addr (BitVec.ofNat 8 v)) else .error ⟨.memoryOutOfBounds, addr⟩

/-- Give the state a memory. -/
def State.setMem (s : State) (m : Memory) : State := { s with mem := m }

/-- The `program_counter`'s select, with the input each choice uses (10_state.md R46). -/
inductive PcSel where
  | advance (len : Nat) | target (t : Byte) | hold
deriving DecidableEq, Repr

/-- The `program_counter`'s next value (10_state.md R46). The advance does not wrap (10_state.md R27). -/
def nextPc (sel : PcSel) (p : Nat) : Nat :=
  match sel with
  | .advance len => p + len
  | .target t => t.toNat
  | .hold => p

/-- End an instruction: the program counter takes its next value (30_encoding.md R100). -/
def State.updatePc (s : State) (sel : PcSel) : State := { s with pc := nextPc sel s.pc }

/-- The two directions of the stack (10_state.md R47). -/
inductive StackKind where
  | push | pop
deriving DecidableEq, Repr

/-- What `stack_control` answers: the address to access and the new SP (10_state.md R47). -/
structure StackPort where
  addr : Byte
  spNext : Byte
deriving DecidableEq, Repr

/-- `stack_control` (10_state.md R47): SP goes down before a push writes and up after a pop reads, modulo 256. -/
def stackControl (kind : StackKind) (sp : Byte) : StackPort :=
  match kind with
  | .push => ⟨sp - 1#8, sp - 1#8⟩
  | .pop => ⟨sp, sp + 1#8⟩

/-- The push primitive (42_stack.md R171). The value is computed in the state after the decrement, so PUSH R7 stores
the new SP. -/
def State.pushByte (s : State) (value : State → Nat) : Except Raise State :=
  let s1 := s.setReg spReg (stackControl .push s.sp).spNext
  match memWrite s1.mem (stackControl .push s.sp).addr.toNat (value s1) with
  | .ok m => .ok (s1.setMem m)
  | .error r => .error r

/-- The read half of the pop primitive (42_stack.md R172): the byte at SP. -/
def State.stackTop (s : State) : Except Raise Byte := memRead s.mem (stackControl .pop s.sp).addr.toNat

/-- The write half of the pop primitive (42_stack.md R172): SP goes up, from the value it has now. -/
def State.stackDrop (s : State) : State := s.setReg spReg (stackControl .pop s.sp).spNext

/-- Append one byte to the output log (10_state.md R35). -/
def State.emit (s : State) (v : Byte) : State := { s with out := s.out ++ [v] }

/-- Move to HALTED (10_state.md R36). -/
def State.halt (s : State) : State := { s with runState := .halted }

/-- Write all three flags (00_scope.md R10, `FL <- ...`). -/
def State.setFlags (s : State) (f : Flags) : State := { s with fl := f }

end Sys2Proof.Machine
end

