-- ==== Sys2Proof/Machine/Flags.lean ====
section
/-! DEFINITION. The flags register: the compare that writes it and its bit positions (41_alu.md R143, 10_state.md R33). -/

namespace Sys2Proof.Machine

/-- `compare(a, b)`, unsigned (41_alu.md R143): exactly one bit is set. -/
def compareFlags (a b : Byte) : Flags :=
  if a.toNat = b.toNat then ⟨true, false, false⟩
  else if b.toNat < a.toNat then ⟨false, true, false⟩
  else ⟨false, false, true⟩

/-- `FL` as a 3-bit value: bit 0 is E, bit 1 is G, bit 2 is L (10_state.md R33; the spec's decision D2, log entry 5).
Only the diagnostic trace shows it. -/
def Flags.toBits (f : Flags) : BitVec 3 := BitVec.ofBool f.l ++ BitVec.ofBool f.g ++ BitVec.ofBool f.e

/-- How many flag bits are set (10_state.md R34). -/
def Flags.count (f : Flags) : Nat := f.e.toNat + f.g.toNat + f.l.toNat

end Sys2Proof.Machine
end

