-- ==== Sys2Proof/Syntax.lean ====
section
/-! DEFINITION. The 13 instructions of spec/opcode_table.json as syntax. A register operand is kept as the whole operand
byte (30_encoding.md R83, R88), since a byte of 8 or more is a form the machine meets and faults on (R101). -/

namespace Sys2Proof

/-- The 13 catalog entries (30_encoding.md R85), in the table's order. -/
inductive Mnemonic where
  | ldi | prn | add | mul | cmp | push | pop | call | ret | jmp | jeq | jne | hlt
deriving DecidableEq, Repr

/-- The four formats (30_encoding.md R84): how many operand bytes, and which of them name registers. -/
inductive Format where
  | f0 | f1r | f2ri | f2rr
deriving DecidableEq, Repr

/-- One constructor per row of the opcode table. Operands are whole bytes, in the order they lie in memory. -/
inductive Instr where
  /-- LDI r,i (40_load_output.md R121). -/
  | ldi (r i : Byte)
  /-- PRN r (40_load_output.md R122). -/
  | prn (r : Byte)
  /-- ADD a,b (41_alu.md R146). -/
  | add (a b : Byte)
  /-- MUL a,b (41_alu.md R147). -/
  | mul (a b : Byte)
  /-- CMP a,b (41_alu.md R148). -/
  | cmp (a b : Byte)
  /-- PUSH r (42_stack.md R174). -/
  | push (r : Byte)
  /-- POP r (42_stack.md R175). -/
  | pop (r : Byte)
  /-- CALL r (43_control.md R191). -/
  | call (r : Byte)
  /-- RET (43_control.md R192). -/
  | ret
  /-- JMP r (43_control.md R193). -/
  | jmp (r : Byte)
  /-- JEQ r (43_control.md R194). -/
  | jeq (r : Byte)
  /-- JNE r (43_control.md R195). -/
  | jne (r : Byte)
  /-- HLT (43_control.md R196). -/
  | hlt
deriving DecidableEq, Repr

/-- The whole catalog, each entry once. -/
def Mnemonic.all : List Mnemonic :=
  [.ldi, .prn, .add, .mul, .cmp, .push, .pop, .call, .ret, .jmp, .jeq, .jne, .hlt]

/-- The format of each catalog entry (30_encoding.md R84). -/
def Mnemonic.format : Mnemonic → Format
  | .ldi => .f2ri
  | .add | .mul | .cmp => .f2rr
  | .prn | .push | .pop | .call | .jmp | .jeq | .jne => .f1r
  | .ret | .hlt => .f0

/-- How many operand bytes a format has (30_encoding.md R84). -/
def Format.operandBytes : Format → Nat
  | .f0 => 0
  | .f1r => 1
  | .f2ri | .f2rr => 2

/-- Which catalog entry an instruction is. -/
def Instr.mnemonic : Instr → Mnemonic
  | .ldi _ _ => .ldi
  | .prn _ => .prn
  | .add _ _ => .add
  | .mul _ _ => .mul
  | .cmp _ _ => .cmp
  | .push _ => .push
  | .pop _ => .pop
  | .call _ => .call
  | .ret => .ret
  | .jmp _ => .jmp
  | .jeq _ => .jeq
  | .jne _ => .jne
  | .hlt => .hlt

/-- An instruction's operand bytes, in memory order (30_encoding.md R80). -/
def Instr.operands : Instr → List Byte
  | .ldi a b | .add a b | .mul a b | .cmp a b => [a, b]
  | .prn a | .push a | .pop a | .call a | .jmp a | .jeq a | .jne a => [a]
  | .ret | .hlt => []

/-- The operand bytes that name registers, in the order R101 checks them: `a` before `b`, and not LDI's immediate. -/
def Instr.registerOperands : Instr → List Byte
  | .add a b | .mul a b | .cmp a b => [a, b]
  | .ldi a _ | .prn a | .push a | .pop a | .call a | .jmp a | .jeq a | .jne a => [a]
  | .ret | .hlt => []

end Sys2Proof
end

