-- ==== Sys2Proof/WellFormed.lean ====
section
/-! DEFINITION. Well-formed instructions: every operand byte that the format marks as a register is 0 to 7
(30_encoding.md R83, R90). An immediate has no illegal value. -/

namespace Sys2Proof

/-- An operand byte names a register exactly when its whole value is below 8 (10_state.md R23, 30_encoding.md R88). -/
def namesRegister (b : Byte) : Bool := decide (b.toNat < 8)

/-- Every register operand names a register (30_encoding.md R90). -/
def Instr.wellFormed (i : Instr) : Bool := i.registerOperands.all namesRegister

end Sys2Proof
end

