-- ==== Sys2Proof/Decode.lean ====
section
/-! DEFINITION. The `decoder_dispatcher`'s tables (10_state.md R42), the decoder, total on any bytes, and the encoder
(30_encoding.md R80 to R91). -/

namespace Sys2Proof

/-- Bits 7:6 of an opcode, the operand count (30_encoding.md R81). -/
def operandCount (op : Byte) : Nat := (op.extractLsb' 6 2).toNat

/-- The one definition of instruction length (30_encoding.md R81): operand count + 1. -/
def instrLength (op : Byte) : Nat := operandCount op + 1

/-- The opcode bytes (30_encoding.md R85; the spec's decision D1, log entry 4). -/
def opcode : Mnemonic → Byte
  | .ldi => 0x82#8
  | .prn => 0x47#8
  | .add => 0xA0#8
  | .mul => 0xA2#8
  | .cmp => 0xA7#8
  | .push => 0x45#8
  | .pop => 0x46#8
  | .call => 0x50#8
  | .ret => 0x11#8
  | .jmp => 0x54#8
  | .jeq => 0x55#8
  | .jne => 0x56#8
  | .hlt => 0x01#8

/-- `CATALOG(op)`: the entry whose opcode byte is the whole of `op`; none is UNKNOWN (30_encoding.md R86). -/
def catalog (op : Byte) : Option Mnemonic := Mnemonic.all.find? fun m => opcode m == op

/-- The instruction made of a catalog entry and its operand bytes; bytes the format does not have are not used. -/
def Instr.ofFields (m : Mnemonic) (a b : Byte) : Instr :=
  match m with
  | .ldi => .ldi a b
  | .prn => .prn a
  | .add => .add a b
  | .mul => .mul a b
  | .cmp => .cmp a b
  | .push => .push a
  | .pop => .pop a
  | .call => .call a
  | .ret => .ret
  | .jmp => .jmp a
  | .jeq => .jeq a
  | .jne => .jne a
  | .hlt => .hlt

/-- Why a list of bytes begins with no instruction. -/
inductive DecodeError where
  /-- Byte number `k` of the instruction (0 the opcode, 1 operand a, 2 operand b) is not there. -/
  | endOfBytes (k : Nat)
  /-- The first byte is no opcode of the catalog (30_encoding.md R89). -/
  | unknownOpcode (op : Byte)
deriving DecidableEq, Repr

/-- Decode the instruction at the head of a list of bytes and give the rest of the list. The checks stand in the order
of 30_encoding.md R95: bits 7:6 = 11, then the operand bytes, then the catalog. -/
def decode : List Byte → Except DecodeError (Instr × List Byte)
  | [] => .error (.endOfBytes 0)
  | op :: rest =>
    if operandCount op = 3 then .error (.unknownOpcode op)
    else if rest.length < operandCount op then .error (.endOfBytes (rest.length + 1))
    else
      match catalog op with
      | none => .error (.unknownOpcode op)
      | some m => .ok (Instr.ofFields m (rest.getD 0 0x00#8) (rest.getD 1 0x00#8), rest.drop (operandCount op))

/-- An instruction's bytes, the opcode first (30_encoding.md R80, R84). -/
def encode (i : Instr) : List Byte := opcode i.mnemonic :: i.operands

/-- The three bytes (the longest instruction) of a table word: bits 7..0 are the opcode byte, bits 15..8 operand a,
bits 23..16 operand b, and every bit from `nbits` up is 0. -/
def tableBytes (nbits w : Nat) : List Byte :=
  let v := w % 2 ^ nbits
  [BitVec.ofNat 8 v, BitVec.ofNat 8 (v / 256), BitVec.ofNat 8 (v / 65536)]

/-- What the decoder reads from a word numbered as spec/opcode_table.json numbers it. -/
def decodeTableWord (nbits w : Nat) : Option Instr :=
  match decode (tableBytes nbits w) with
  | .ok (i, _) => some i
  | .error _ => none

end Sys2Proof
end

