-- ==== Sys2Proof/Machine/Operands.lean ====
section
/-! DEFINITION. The two operand kinds (30_encoding.md R83): a register operand, checked before the handler, and an
immediate. -/

namespace Sys2Proof.Machine

/-- A register operand (30_encoding.md R88, R101): the whole byte is the index; 8 or more raises MemoryOutOfBounds with
the byte as context. -/
def regOperand (b : Byte) : Except Raise RegIndex :=
  if h : b.toNat < 8 then .ok ⟨b.toNat, h⟩ else .error ⟨.memoryOutOfBounds, b.toNat⟩

/-- The immediate operand: the byte as it is, with no extension and no scaling (30_encoding.md R87). -/
def immediate (b : Byte) : Byte := b

/-- The sequential advance of a catalog entry: by the length its opcode gives (30_encoding.md R81, R100). -/
def advanceOf (m : Mnemonic) : PcSel := .advance (instrLength (opcode m))

end Sys2Proof.Machine
end

