-- ==== Sys2Proof/Machine/Alu.lean ====
section
/-! DEFINITION. The `alu_8bit` and its instructions: ADD, MUL, CMP (41_alu.md). -/

namespace Sys2Proof.Machine

/-- The ALU's operation select (41_alu.md R140). `other` is any select that is none of the three (R144); the spec gives
no numeric encoding, so it carries a bare number. -/
inductive AluOp where
  | add | mul | cmp | other (select : Nat)
deriving DecidableEq, Repr

/-- The ALU's outputs (10_state.md R44): a result for ADD and MUL, flags to write for CMP. -/
structure AluOut where
  result : Option Byte
  flags : Option Flags
deriving DecidableEq, Repr

/-- `add(a, b) = (a + b) mod 256` (41_alu.md R141). -/
def aluAdd (a b : Byte) : Byte := BitVec.ofNat 8 (a.toNat + b.toNat)

/-- `multiply(a, b) = (a * b) mod 256` (41_alu.md R142). -/
def aluMultiply (a b : Byte) : Byte := BitVec.ofNat 8 (a.toNat * b.toNat)

/-- The `alu_8bit` (10_state.md R44, 41_alu.md R140 to R144). -/
def alu (op : AluOp) (a b : Byte) : Except FaultKind AluOut :=
  match op with
  | .add => .ok ⟨some (aluAdd a b), none⟩
  | .mul => .ok ⟨some (aluMultiply a b), none⟩
  | .cmp => .ok ⟨none, some (compareFlags a b)⟩
  | .other _ => .error .unsupportedALUOperation

/-- Ask the ALU for an operation; its fault, if any, has the opcode as context (60_exceptions.md R234). -/
def aluRequest (op : AluOp) (opc a b : Byte) : Except Raise AluOut :=
  match alu op a b with
  | .ok o => .ok o
  | .error k => .error ⟨k, opc.toNat⟩

/-- Write what the ALU answered: the result to register `q`, the flags to `FL`. -/
def State.writeAlu (s : State) (q : RegIndex) (o : AluOut) : State :=
  let s1 := match o.result with
    | some v => s.setReg q v
    | none => s
  match o.flags with
  | some f => s1.setFlags f
  | none => s1

/-- What ADD, MUL and CMP share (41_alu.md R146 to R148): check both registers, read both, then write. -/
def aluInstr (op : AluOp) (m : Mnemonic) (a b : Byte) (s : State) : StepOutcome :=
  s.orFault (regOperand a) fun qa =>
    s.orFault (regOperand b) fun qb =>
      s.orFault (aluRequest op (opcode m) (s.reg qa) (s.reg qb)) fun o =>
        .next ((s.writeAlu qa o).updatePc (advanceOf m))

/-- ADD a,b (41_alu.md R146). -/
def execAdd (a b : Byte) (s : State) : StepOutcome := aluInstr .add .add a b s

/-- MUL a,b (41_alu.md R147). -/
def execMul (a b : Byte) (s : State) : StepOutcome := aluInstr .mul .mul a b s

/-- CMP a,b (41_alu.md R148): no register is written. -/
def execCmp (a b : Byte) (s : State) : StepOutcome := aluInstr .cmp .cmp a b s

end Sys2Proof.Machine
end

