-- ==== Sys2Proof/Machine/Control.lean ====
section
/-! DEFINITION. Control transfer and halt: CALL, RET, JMP, JEQ, JNE, HLT (43_control.md). -/

namespace Sys2Proof.Machine

/-- CALL r (43_control.md R191): SP goes down, the address after the CALL is stored at the new SP (modulo 256), then the
register is read as the target. -/
def execCall (r : Byte) (s : State) : StepOutcome :=
  s.orFault (regOperand r) fun q =>
    s.orFault (s.pushByte fun _ => s.pc + instrLength (opcode .call)) fun t =>
      .next (t.updatePc (.target (t.reg q)))

/-- RET (43_control.md R192): the byte at SP is the target, then SP goes up. -/
def execRet (s : State) : StepOutcome :=
  s.orFault s.stackTop fun v => .next (s.stackDrop.updatePc (.target v))

/-- What the three jumps share: the register operand is checked whether or not the jump is taken (30_encoding.md R101);
a taken jump writes the pc, another advances it (R100). -/
def jumpIf (taken : Bool) (m : Mnemonic) (r : Byte) (s : State) : StepOutcome :=
  s.orFault (regOperand r) fun q =>
    .next (s.updatePc (if taken then .target (s.reg q) else advanceOf m))

/-- JMP r (43_control.md R193). -/
def execJmp (r : Byte) (s : State) : StepOutcome := jumpIf true .jmp r s

/-- JEQ r (43_control.md R194): taken when Equal is set. -/
def execJeq (r : Byte) (s : State) : StepOutcome := jumpIf s.fl.e .jeq r s

/-- JNE r (43_control.md R195): taken when Equal is clear. -/
def execJne (r : Byte) (s : State) : StepOutcome := jumpIf (!s.fl.e) .jne r s

/-- HLT (43_control.md R196): the run state becomes HALTED and the pc is held. -/
def execHlt (s : State) : StepOutcome := .next (s.halt.updatePc .hold)

end Sys2Proof.Machine
end

