-- ==== Sys2Proof/Machine/LoadOutput.lean ====
section
/-! DEFINITION. Load immediate and print: LDI, PRN (40_load_output.md). -/

namespace Sys2Proof.Machine

/-- LDI r,i (40_load_output.md R121): the register takes the immediate. -/
def execLdi (r i : Byte) (s : State) : StepOutcome :=
  s.orFault (regOperand r) fun q =>
    .next ((s.setReg q (immediate i)).updatePc (advanceOf .ldi))

/-- PRN r (40_load_output.md R122): the register's value goes to the output log. -/
def execPrn (r : Byte) (s : State) : StepOutcome :=
  s.orFault (regOperand r) fun q =>
    .next ((s.emit (s.reg q)).updatePc (advanceOf .prn))

end Sys2Proof.Machine
end

