-- ==== Sys2Proof/Machine/Stack.lean ====
section
/-! DEFINITION. The data stack: PUSH, POP (42_stack.md). -/

namespace Sys2Proof.Machine

/-- PUSH r (42_stack.md R174): SP goes down, then the register is read and stored at the new SP. -/
def execPush (r : Byte) (s : State) : StepOutcome :=
  s.orFault (regOperand r) fun q =>
    s.orFault (s.pushByte fun s1 => (s1.reg q).toNat) fun t =>
      .next (t.updatePc (advanceOf .push))

/-- POP r (42_stack.md R175): the register takes the byte at SP, then SP goes up from the value it has after that write
(POP R7 leaves the popped byte + 1). -/
def execPop (r : Byte) (s : State) : StepOutcome :=
  s.orFault (regOperand r) fun q =>
    s.orFault s.stackTop fun v =>
      .next ((s.setReg q v).stackDrop.updatePc (advanceOf .pop))

end Sys2Proof.Machine
end

