-- ==== Sys2Proof/Machine/Fetch.lean ====
section
/-! DEFINITION. The `fetch_unit` and the decode of what it fetched (30_encoding.md R95 to R99). -/

namespace Sys2Proof.Machine

/-- Read `k` bytes from address `a` up; the first address out of range is the fault's context (30_encoding.md R98). -/
def readBytes (m : Memory) (a : Nat) : Nat → Except Raise (List Byte)
  | 0 => .ok []
  | k + 1 =>
    match memRead m a with
    | .error r => .error r
    | .ok b =>
      match readBytes m (a + 1) k with
      | .error r => .error r
      | .ok bs => .ok (b :: bs)

/-- Fetch one instruction's bytes: the opcode (30_encoding.md R96), the check of bits 7:6 (R97), then only the operand
bytes the length needs (R98). -/
def fetch (s : State) : Except Raise (List Byte) :=
  match memRead s.mem s.pc with
  | .error r => .error r
  | .ok op =>
    if operandCount op = 3 then .error ⟨.unknownOpcode, op.toNat⟩
    else
      match readBytes s.mem (s.pc + 1) (operandCount op) with
      | .error r => .error r
      | .ok bs => .ok (op :: bs)

/-- The fault for bytes that begin no instruction, fetched at `p`: a missing byte is one at an address out of range
(30_encoding.md R98), an opcode not in the catalog is UnknownOpcode (R99). -/
def decodeErrorRaise (p : Nat) : DecodeError → Raise
  | .endOfBytes k => ⟨.memoryOutOfBounds, p + k⟩
  | .unknownOpcode op => ⟨.unknownOpcode, op.toNat⟩

/-- Fetch and decode the instruction at the program counter (30_encoding.md R95, up to the catalog lookup). -/
def fetchDecode (s : State) : Except Raise Instr :=
  match fetch s with
  | .error r => .error r
  | .ok bs =>
    match decode bs with
    | .error e => .error (decodeErrorRaise s.pc e)
    | .ok (i, _) => .ok i

/-- Store bytes from address `a` up, skipping what lies outside memory. -/
def placeBytes (m : Memory) (a : Nat) : List Byte → Memory
  | [] => m
  | b :: bs => placeBytes (if a < Config.memSize then m.write a b else m) (a + 1) bs

end Sys2Proof.Machine
end

