-- ==== Sys2Proof/Machine/Step.lean ====
section
/-! DEFINITION. One step of the execution loop (30_encoding.md R95). -/

namespace Sys2Proof.Machine

/-- One step. It runs only in RUNNING: HALTED and FAULTED are terminal (10_state.md R36), so there the machine is stuck
(log entry 2). The register check, the handler and the pc advance are in each meaning that `exec` calls. -/
def step (s : State) : Host.Outcome State Fault Refusal :=
  match s.runState with
  | .halted => .fault .coreHalted
  | .faulted => .fault .coreFaulted
  | .running => s.orFault (fetchDecode s) fun i => exec i s

/-- `s` with the instruction of a table word stored at the program counter, where `step` fetches next. -/
def State.withFetchWord (s : State) (nbits w : Nat) : State :=
  s.setMem (placeBytes s.mem s.pc (tableBytes nbits w))

end Sys2Proof.Machine
end

