-- ==== Sys2Proof/Machine/SubBlocks.lean ====
section
/-! DEFINITION. The core as the spec's eight sub-blocks wired together (10_state.md R41 to R48, 30_encoding.md R102): a
second reading of the step, for the statement that it gives the same end-of-step state as `step`. `step` is the
model; nothing in it uses this file. -/

namespace Sys2Proof.Machine

/-- The `fetch_unit`'s outputs (10_state.md R41). A byte is none where it is not valid: its address was not to be read or
lies out of range. -/
structure FetchOut where
  /-- The memory read addresses, in the order of the reads. -/
  readAddrs : List Byte
  opcode : Option Byte
  operandA : Option Byte
  operandB : Option Byte
  /-- None, or the address of the MemoryOutOfBounds; this unit raises no other fault. -/
  fetchFault : Option Nat
deriving DecidableEq, Repr

/-- The addresses of one instruction's bytes: the opcode's (30_encoding.md R96), then those of the operand bytes its
length needs (R98); none for bits 7:6 = 11 (R97). -/
def fetchAddrs (m : Memory) (pc : Nat) : List Nat :=
  match operandCount (m.read pc) with
  | 1 => [pc, pc + 1]
  | 2 => [pc, pc + 1, pc + 2]
  | _ => [pc]

/-- The `fetch_unit` (10_state.md R41): it reads the addresses that lie in memory, and the first that does not is the
fetch fault. -/
def fetchUnit (m : Memory) (pc : Nat) : FetchOut :=
  let inRange := (fetchAddrs m pc).filter (· < Config.memSize)
  { readAddrs := inRange.map (BitVec.ofNat 8)
    opcode := inRange[0]?.map m.read
    operandA := inRange[1]?.map m.read
    operandB := inRange[2]?.map m.read
    fetchFault := (fetchAddrs m pc).find? (Config.memSize ≤ ·) }

/-- The `decoder_dispatcher`'s outputs (10_state.md R42); no handler is UNKNOWN. -/
structure DecoderOut where
  n : Nat
  len : Nat
  handler : Option Mnemonic
deriving DecidableEq, Repr

/-- The `decoder_dispatcher` (10_state.md R42). -/
def decoderDispatcher (op : Byte) : DecoderOut := ⟨operandCount op, instrLength op, catalog op⟩

/-- The register-operand check, by format (30_encoding.md R101): the two register numbers the handler may read. -/
def checkRegisters (fmt : Format) (a b : Byte) : Except Raise (RegIndex × RegIndex) :=
  match fmt with
  | .f0 => .ok (0, 0)
  | .f1r | .f2ri =>
    match regOperand a with
    | .error r => .error r
    | .ok qa => .ok (qa, 0)
  | .f2rr =>
    match regOperand a with
    | .error r => .error r
    | .ok qa =>
      match regOperand b with
      | .error r => .error r
      | .ok qb => .ok (qa, qb)

/-- Every write enable of one step (10_state.md R48). Register writes stand in handler order, at most two (R43). -/
structure Controls where
  regWrites : List (RegIndex × Byte)
  memWrite : Option (Byte × Byte)
  pcSel : PcSel
  flags : Option Flags
  emit : Option Byte
  halt : Bool

/-- Drive nothing but the given program-counter select. -/
def Controls.only (sel : PcSel) : Controls := ⟨[], none, sel, none, none, false⟩

/-- The `alu_8bit`'s outputs on the write enables: the result to `qa`, the flags with `flags_we`. An ALU fault drives
nothing; the multiplexer never selects an operation that faults (41_alu.md R144). -/
def Controls.ofAlu (sel : PcSel) (qa : RegIndex) : Except FaultKind AluOut → Controls
  | .ok o => { Controls.only sel with regWrites := o.result.toList.map fun v => (qa, v), flags := o.flags }
  | .error _ => Controls.only sel

/-- The `instruction_handler_multiplexer`, row by row as the table of 30_encoding.md R102. `imm` is operand b. Where a
handler reads a register after the stack pointer's write, the new stack pointer is forwarded. -/
def controls (h : Mnemonic) (qa qb : RegIndex) (imm : Byte) (s : State) : Controls :=
  let adv := advanceOf h
  let down := stackControl .push s.sp
  let up := stackControl .pop s.sp
  let popped := s.mem.read up.addr.toNat
  let afterDown := if qa = spReg then down.spNext else s.reg qa
  match h with
  | .ldi => { Controls.only adv with regWrites := [(qa, imm)] }
  | .prn => { Controls.only adv with emit := some (s.reg qa) }
  | .add => Controls.ofAlu adv qa (alu .add (s.reg qa) (s.reg qb))
  | .mul => Controls.ofAlu adv qa (alu .mul (s.reg qa) (s.reg qb))
  | .cmp => Controls.ofAlu adv qa (alu .cmp (s.reg qa) (s.reg qb))
  | .push => { Controls.only adv with regWrites := [(spReg, down.spNext)], memWrite := some (down.addr, afterDown) }
  | .pop =>
    let spNow := if qa = spReg then popped else s.sp
    { Controls.only adv with regWrites := [(qa, popped), (spReg, (stackControl .pop spNow).spNext)] }
  | .call =>
    { Controls.only (.target afterDown) with
      regWrites := [(spReg, down.spNext)]
      memWrite := some (down.addr, BitVec.ofNat 8 (s.pc + instrLength (opcode .call))) }
  | .ret => { Controls.only (.target popped) with regWrites := [(spReg, up.spNext)] }
  | .jmp => Controls.only (.target (s.reg qa))
  | .jeq => Controls.only (if s.fl.e then .target (s.reg qa) else adv)
  | .jne => Controls.only (if s.fl.e then adv else .target (s.reg qa))
  | .hlt => { Controls.only .hold with halt := true }

/-- Apply every write enable: the end-of-step state. -/
def Controls.commit (c : Controls) (s : State) : State where
  regs := (c.regWrites.foldl (fun t w => t.setReg w.1 w.2) s).regs
  pc := nextPc c.pcSel s.pc
  fl := c.flags.getD s.fl
  runState := if c.halt then .halted else s.runState
  faultRecord := s.faultRecord
  out := s.out ++ c.emit.toList
  mem :=
    match c.memWrite with
    | some (a, v) => s.mem.write a.toNat v
    | none => s.mem

/-- The whole core as wired sub-blocks. Each fault has its block: MemoryOutOfBounds of a fetch is the `fetch_unit`'s
(10_state.md R41), UnknownOpcode for bits 7:6 = 11 the `decoder_dispatcher`'s (30_encoding.md R97), and UnknownOpcode for
UNKNOWN is the last arm of the multiplexer (10_state.md R48). A byte the `fetch_unit` does not give is never used. -/
def blockStep (s : State) : StepOutcome :=
  match s.runState with
  | .halted => .fault .coreHalted
  | .faulted => .fault .coreFaulted
  | .running =>
    let f := fetchUnit s.mem s.pc
    let op := f.opcode.getD 0x00#8
    let a := f.operandA.getD 0x00#8
    let b := f.operandB.getD 0x00#8
    let d := decoderDispatcher op
    match f.fetchFault with
    | some addr => .next (s.raise ⟨.memoryOutOfBounds, addr⟩)
    | none =>
      if d.n = 3 then .next (s.raise ⟨.unknownOpcode, op.toNat⟩)
      else
        match d.handler with
        | none => .next (s.raise ⟨.unknownOpcode, op.toNat⟩)
        | some h => s.orFault (checkRegisters h.format a b) fun q => .next ((controls h q.1 q.2 b s).commit s)

end Sys2Proof.Machine
end

