-- ==== Sys2Proof/Machine/HostInterface.lean ====
section
/-! DEFINITION. What the host may do with a core: load, run, read the end of a run, watch the trace, and the protocol
these follow (70_reset_and_hazards.md R262 to R267, 60_exceptions.md R246, R247). -/

namespace Sys2Proof.Machine

/-- The one error of `load` (70_reset_and_hazards.md R263). It is not an execution fault. -/
inductive LoadError where
  | programTooLarge
deriving DecidableEq, Repr

/-- `load(bytes)` (70_reset_and_hazards.md R262): byte `i` goes to address `i`. More than 256 bytes load nothing
(R263). Only the length is checked (R265). -/
def load (bytes : List Byte) (s : State) : Except LoadError State :=
  if Config.memSize < bytes.length then .error .programTooLarge
  else .ok (s.setMem (placeBytes s.mem 0 bytes))

/-- How a bounded run answers: it ended, or the fuel ran out first (43_control.md R197, a hang as far as it was run). -/
inductive RunResult where
  | ended (s : State) | outOfFuel (s : State)
deriving DecidableEq, Repr

/-- Repeat `step` while the core is RUNNING (70_reset_and_hazards.md R266), at most `fuel` times. -/
def runLoop : Nat → State → RunResult
  | 0, s => if s.runState = .running then .outOfFuel s else .ended s
  | k + 1, s =>
    match step s with
    | .next t => runLoop k t
    | .fault _ => .ended s
    | .refused _ => .ended s

/-- `run()` (70_reset_and_hazards.md R266): set RUNNING, then repeat the step. -/
def run (fuel : Nat) (s : State) : RunResult := runLoop fuel { s with runState := .running }

/-- What the host may read after a run (60_exceptions.md R247). -/
structure Report where
  endedIn : RunState
  regs : Vector Byte 8
  pc : Nat
  fl : Flags
  mem : Memory
  out : List Byte
  fault : Option FaultRecord
deriving DecidableEq, Repr

/-- The end of a run as the host reads it (60_exceptions.md R247); there is none while the core is RUNNING. -/
def State.report (s : State) : Option Report :=
  if s.runState = .running then none
  else some ⟨s.runState, s.regs, s.pc, s.fl, s.mem, s.out, s.faultRecord⟩

/-- One snapshot of the diagnostic trace (60_exceptions.md R246). -/
structure Trace where
  pc : Nat
  fl : BitVec 3
  bytes : List (Option Byte)
  regs : Vector Byte 8
deriving DecidableEq, Repr

/-- The snapshot before a step (60_exceptions.md R246): an address of 256 or more is reported absent. -/
def State.trace (s : State) : Trace where
  pc := s.pc
  fl := s.fl.toBits
  bytes := [0, 1, 2].map fun k => if s.pc + k < Config.memSize then some (s.mem.read (s.pc + k)) else none
  regs := s.regs

/-- Where the host stands in the protocol of 70_reset_and_hazards.md R267. -/
inductive HostPhase where
  | constructed | loaded | loadFailed | finished
deriving DecidableEq, Repr

/-- A core and the host's place in the protocol. -/
structure Session where
  phase : HostPhase
  core : State
deriving DecidableEq, Repr

/-- Construct a core (70_reset_and_hazards.md R260, R267). -/
def Session.construct (rInit : Fin 7 → Byte) : Session := ⟨.constructed, State.resetWith rInit⟩

/-- Load once, on a freshly constructed core; in any other phase the spec gives no move (R267; log entry 9). A load that
fails leaves the core as it was (R263). -/
def Session.load (h : Session) (bytes : List Byte) : Option Session :=
  match h.phase with
  | .constructed =>
    match Sys2Proof.Machine.load bytes h.core with
    | .ok t => some ⟨.loaded, t⟩
    | .error _ => some { h with phase := .loadFailed }
  | _ => none

/-- Run once, after a successful load (R267); in any other phase there is no move, and none while the run has not
ended within the fuel. -/
def Session.run (h : Session) (fuel : Nat) : Option Session :=
  match h.phase with
  | .loaded =>
    match Sys2Proof.Machine.run fuel h.core with
    | .ended t => some ⟨.finished, t⟩
    | .outOfFuel _ => none
  | _ => none

/-- Read the end state, after the run (R267). -/
def Session.read (h : Session) : Option Report :=
  match h.phase with
  | .finished => h.core.report
  | _ => none

end Sys2Proof.Machine
end

