-- ==== Sys2Proof/Safety.lean ====
section
/-! DEFINITION. What every state of a run satisfies, and the frame vocabulary the statements use. -/

namespace Sys2Proof.Machine

/-- A fault record a run can leave (60_exceptions.md R232, R233; 10_state.md R37): the pc is 0 to 256; the context of
MemoryOutOfBounds is 256 (a fetch) or an operand byte of 8 or more; that of UnknownOpcode is a byte outside the
catalog, fetched inside memory; UnsupportedALUOperation does not arise (R234). -/
def FaultRecord.Legal (r : FaultRecord) : Prop :=
  r.pc ≤ Config.memSize ∧
    match r.kind with
    | .memoryOutOfBounds =>
      r.context = Config.memSize ∨ (8 ≤ r.context ∧ r.context < Config.memSize ∧ r.pc < Config.memSize)
    | .unknownOpcode => r.context < Config.memSize ∧ r.pc < Config.memSize ∧ catalog (BitVec.ofNat 8 r.context) = none
    | .unsupportedALUOperation => False

/-- The invariant of the machine. -/
structure State.Inv (s : State) : Prop where
  /-- Memory keeps its canonical form (log entry 7). -/
  mem_wf : Memory.wf s.mem
  /-- The pc stays in [0, 256] (10_state.md R27). -/
  pc_le : s.pc ≤ Config.memSize
  /-- A halted core stands at the HLT byte, inside memory (10_state.md R29). -/
  halted_pc : s.runState = .halted → s.pc < Config.memSize
  /-- At most one flag is set (10_state.md R34). -/
  one_flag : s.fl.count ≤ 1
  /-- There is a fault record exactly in FAULTED (10_state.md R37). -/
  record_iff : s.faultRecord.isSome ↔ s.runState = .faulted
  /-- The record is one a run can leave, and the pc still is the faulting step's (60_exceptions.md R231). -/
  record_legal : ∀ r, s.faultRecord = some r → r.Legal ∧ r.pc = s.pc

/-- Every byte of memory reads the same in both states. -/
def SameMemory (s t : State) : Prop := ∀ a, t.mem.read a = s.mem.read a

/-- Every byte of memory but the one at `a` reads the same in both states. -/
def SameMemoryBut (a : Nat) (s t : State) : Prop := ∀ b, b ≠ a → t.mem.read b = s.mem.read b

/-- Every register outside the list holds the same value in both states. -/
def SameRegsBut (written : List RegIndex) (s t : State) : Prop := ∀ q, q ∉ written → t.reg q = s.reg q

/-- The registers an instruction may write, by the table of 10_state.md R25, as register numbers. -/
def writtenRegs : Instr → List Nat
  | .ldi r _ => [r.toNat]
  | .add a _ | .mul a _ => [a.toNat]
  | .pop r => [r.toNat, 7]
  | .push _ | .call _ | .ret => [7]
  | .prn _ | .cmp _ _ | .jmp _ | .jeq _ | .jne _ | .hlt => []

/-- The state with a fault taken in it (60_exceptions.md R231), written out for the statements. -/
def State.faultedWith (s : State) (kind : FaultKind) (context : Nat) : State :=
  { s with runState := .faulted, faultRecord := some ⟨kind, s.pc, context⟩ }

/-- Run state and fault record are the same in both states. -/
def SameRun (s t : State) : Prop := t.runState = s.runState ∧ t.faultRecord = s.faultRecord

end Sys2Proof.Machine
end

