-- ==== Sys2Proof/Certificates/Slice0/Obligations.lean ====
section
/-! DEFINITION. The statements about the machine, for the provers. Each docstring names the rule of spec/ it comes from
and, where a clause rests on a decision of the spec or a choice of the model, that decision or log entry. -/

open Sys2Proof Sys2Proof.Machine

/-! ## Reset and load -/

/-- 70_reset_and_hazards.md R260: the state after reset, for every `R_INIT`. FL = 0b000 is the spec's decision D3 (log
entry 5). That the run state is RUNNING already is the model's choice (log entry 8, DEDUCED): the spec gives RUNNING once
`run` starts (R260, R36) and no value before. -/
def Obligations.ResetStateForEveryRInit : Prop :=
  ∀ rInit : Fin 7 → Byte,
    (∀ i : Fin 7, (State.resetWith rInit).reg i.castSucc = rInit i) ∧
    (State.resetWith rInit).reg 7 = 0xF4#8 ∧
    (State.resetWith rInit).pc = 0 ∧
    (State.resetWith rInit).fl = ⟨false, false, false⟩ ∧
    (State.resetWith rInit).runState = .running ∧
    (State.resetWith rInit).faultRecord = none ∧
    (State.resetWith rInit).out = [] ∧
    ∀ a, (State.resetWith rInit).mem.read a = 0x00#8

/-- 20_memory.md R59 and 70_reset_and_hazards.md R262: memory resets to zero; a load of N ≤ 256 bytes leaves the bytes
at 0 to N-1 and zero above, and changes no register, pc or FL; more than 256 bytes fail with ProgramTooLarge. -/
def Obligations.LoadPlacesTheProgram : Prop :=
  (∀ rInit a, (State.resetWith rInit).mem.read a = 0x00#8) ∧
  ∀ (rInit : Fin 7 → Byte) (bytes : List Byte),
    (bytes.length ≤ 256 →
      ∃ t, load bytes (State.resetWith rInit) = .ok t ∧
        (∀ k (h : k < bytes.length), t.mem.read k = bytes[k]) ∧
        (∀ k, bytes.length ≤ k → t.mem.read k = 0x00#8) ∧
        t.regs = (State.resetWith rInit).regs ∧ t.pc = (State.resetWith rInit).pc ∧
        t.fl = (State.resetWith rInit).fl) ∧
    (256 < bytes.length → load bytes (State.resetWith rInit) = .error .programTooLarge)

/-- 70_reset_and_hazards.md R263, R266, R267 (decision D17, log entry 9): load moves only a fresh core, and a load that
fails leaves the core as it was and allows no run; run moves only a loaded core and ends it HALTED or FAULTED; the end
state is read only after the run. -/
def Obligations.HostProtocolHasOnlyTheSpecMoves : Prop :=
  (∀ (h : Session) (bytes : List Byte), (h.load bytes).isSome ↔ h.phase = .constructed) ∧
  (∀ (rInit : Fin 7 → Byte) (bytes : List Byte) (fuel : Nat), 256 < bytes.length →
    ∃ h, (Session.construct rInit).load bytes = some h ∧ h.core = State.resetWith rInit ∧ h.run fuel = none) ∧
  (∀ (h h' : Session) (fuel : Nat), h.run fuel = some h' →
    h.phase = .loaded ∧ h'.phase = .finished ∧ h'.core.runState ≠ .running ∧ h'.read.isSome) ∧
  (∀ h : Session, h.read.isSome → h.phase = .finished)

/-! ## Registers and memory -/

/-- 10_state.md R21: a register write stores its value modulo 256 and a read returns the stored byte; no other register
changes. -/
def Obligations.RegisterWriteStoresModulo256 : Prop :=
  ∀ (s : State) (q : RegIndex) (v : Nat),
    ((s.setReg q (BitVec.ofNat 8 v)).reg q).toNat = v % 256 ∧
    SameRegsBut [q] s (s.setReg q (BitVec.ofNat 8 v))

/-- 20_memory.md R51: MemRead answers the stored byte inside [0, 256) and raises MemoryOutOfBounds, with the address as
context, outside. -/
def Obligations.MemReadContract : Prop :=
  ∀ (m : Memory) (addr : Nat),
    (addr ≤ 255 → memRead m addr = .ok (m.read addr)) ∧
    (256 ≤ addr → memRead m addr = .error ⟨.memoryOutOfBounds, addr⟩)

/-- 20_memory.md R52: MemWrite stores `v mod 256` at the address, leaves every other byte alone, and raises
MemoryOutOfBounds outside [0, 256). -/
def Obligations.MemWriteContract : Prop :=
  ∀ (m : Memory) (addr v : Nat),
    (addr ≤ 255 → ∃ m', memWrite m addr v = .ok m' ∧ (m'.read addr).toNat = v % 256 ∧
      ∀ b, b ≠ addr → m'.read b = m.read b) ∧
    (256 ≤ addr → memWrite m addr v = .error ⟨.memoryOutOfBounds, addr⟩)

/-- Log entry 7: in canonical form, two memories that read the same at every address are the same list. -/
def Obligations.CanonicalMemoriesEqualByReads : Prop :=
  ∀ m m' : Memory, m.wf → m'.wf → (∀ a, m.read a = m'.read a) → m = m'

/-! ## The ALU -/

/-- 41_alu.md R141: the sum modulo 256, and no flag. -/
def Obligations.AluAddIsSumModulo256 : Prop :=
  ∀ a b : Byte, ∃ r, alu .add a b = .ok ⟨some r, none⟩ ∧ r.toNat = (a.toNat + b.toNat) % 256

/-- 41_alu.md R142: the product modulo 256, which is the low 8 bits of the 16-bit product, and no flag. -/
def Obligations.AluMultiplyIsLowByteOfProduct : Prop :=
  ∀ a b : Byte, ∃ r, alu .mul a b = .ok ⟨some r, none⟩ ∧ r.toNat = (a.toNat * b.toNat) % 256 ∧
    r = (a.setWidth 16 * b.setWidth 16).extractLsb' 0 8

/-- 41_alu.md R143: the compare is unsigned and sets exactly one of E, G, L. -/
def Obligations.AluCompareSetsExactlyOneFlag : Prop :=
  ∀ a b : Byte, ∃ f, alu .cmp a b = .ok ⟨none, some f⟩ ∧ f.count = 1 ∧
    (a.toNat = b.toNat → f = ⟨true, false, false⟩) ∧
    (b.toNat < a.toNat → f = ⟨false, true, false⟩) ∧
    (a.toNat < b.toNat → f = ⟨false, false, true⟩)

/-- 41_alu.md R144 and 60_exceptions.md R234: the ALU refuses every other select, and no instruction ever raises
UnsupportedALUOperation. -/
def Obligations.UnsupportedAluOperationNeverRaised : Prop :=
  (∀ n a b, alu (.other n) a b = .error .unsupportedALUOperation) ∧
  ∀ i s t r, exec i s = .next t → t.faultRecord = some r → r.kind = .unsupportedALUOperation →
    s.faultRecord = some r

/-- 41_alu.md R145: ADD and MUL commute, times 0 and times 1, and adding 256 - k subtracts k modulo 256. -/
def Obligations.AluArithmeticLaws : Prop :=
  (∀ a b, aluAdd a b = aluAdd b a) ∧ (∀ a b, aluMultiply a b = aluMultiply b a) ∧
  (∀ a, aluMultiply a 0x00#8 = 0x00#8) ∧ (∀ a, aluMultiply a 0x01#8 = a) ∧
  ∀ (a : Byte) (k : Nat), 1 ≤ k → k ≤ 255 → aluAdd a (BitVec.ofNat 8 (256 - k)) = a - BitVec.ofNat 8 k

/-! ## Instructions: where each completes, its result and its frame. In all of them a register operand may name R7,
which is the spec's decision D9 (log entry 6). -/

/-- 40_load_output.md R121. -/
def Obligations.LdiLoadsTheImmediate : Prop :=
  ∀ (s : State) (r i : Byte) (h : r.toNat < 8),
    ∃ t, exec (.ldi r i) s = .next t ∧ t.reg ⟨r.toNat, h⟩ = i ∧ SameRegsBut [⟨r.toNat, h⟩] s t ∧
      t.pc = s.pc + 3 ∧ t.fl = s.fl ∧ t.out = s.out ∧ SameMemory s t ∧ SameRun s t

/-- 40_load_output.md R122. -/
def Obligations.PrnEmitsTheRegister : Prop :=
  ∀ (s : State) (r : Byte) (h : r.toNat < 8),
    ∃ t, exec (.prn r) s = .next t ∧ t.out = s.out ++ [s.reg ⟨r.toNat, h⟩] ∧ SameRegsBut [] s t ∧
      t.pc = s.pc + 2 ∧ t.fl = s.fl ∧ SameMemory s t ∧ SameRun s t

/-- 41_alu.md R146. -/
def Obligations.AddWritesTheSum : Prop :=
  ∀ (s : State) (a b : Byte) (ha : a.toNat < 8) (hb : b.toNat < 8),
    ∃ t, exec (.add a b) s = .next t ∧
      (t.reg ⟨a.toNat, ha⟩).toNat = ((s.reg ⟨a.toNat, ha⟩).toNat + (s.reg ⟨b.toNat, hb⟩).toNat) % 256 ∧
      SameRegsBut [⟨a.toNat, ha⟩] s t ∧ t.pc = s.pc + 3 ∧ t.fl = s.fl ∧ t.out = s.out ∧ SameMemory s t ∧ SameRun s t

/-- 41_alu.md R147. -/
def Obligations.MulWritesTheProduct : Prop :=
  ∀ (s : State) (a b : Byte) (ha : a.toNat < 8) (hb : b.toNat < 8),
    ∃ t, exec (.mul a b) s = .next t ∧
      (t.reg ⟨a.toNat, ha⟩).toNat = ((s.reg ⟨a.toNat, ha⟩).toNat * (s.reg ⟨b.toNat, hb⟩).toNat) % 256 ∧
      SameRegsBut [⟨a.toNat, ha⟩] s t ∧ t.pc = s.pc + 3 ∧ t.fl = s.fl ∧ t.out = s.out ∧ SameMemory s t ∧ SameRun s t

/-- 41_alu.md R148. -/
def Obligations.CmpWritesOneFlag : Prop :=
  ∀ (s : State) (a b : Byte) (ha : a.toNat < 8) (hb : b.toNat < 8),
    ∃ t, exec (.cmp a b) s = .next t ∧
      t.fl.e = decide ((s.reg ⟨a.toNat, ha⟩).toNat = (s.reg ⟨b.toNat, hb⟩).toNat) ∧
      t.fl.g = decide ((s.reg ⟨b.toNat, hb⟩).toNat < (s.reg ⟨a.toNat, ha⟩).toNat) ∧
      t.fl.l = decide ((s.reg ⟨a.toNat, ha⟩).toNat < (s.reg ⟨b.toNat, hb⟩).toNat) ∧
      SameRegsBut [] s t ∧ t.pc = s.pc + 3 ∧ t.out = s.out ∧ SameMemory s t ∧ SameRun s t

/-- 42_stack.md R171, R174. That PUSH R7 stores the new SP is the spec's decision D10, and that SP wraps unchecked its
decision D11 (log entry 6). -/
def Obligations.PushStoresAtTheNewStackPointer : Prop :=
  ∀ (s : State) (r : Byte) (h : r.toNat < 8),
    ∃ t, exec (.push r) s = .next t ∧
      t.sp.toNat = (s.sp.toNat + 255) % 256 ∧
      (stackControl .push s.sp).addr = t.sp ∧
      t.mem.read (stackControl .push s.sp).addr.toNat = (if r.toNat = 7 then t.sp else s.reg ⟨r.toNat, h⟩) ∧
      SameMemoryBut (stackControl .push s.sp).addr.toNat s t ∧ SameRegsBut [7] s t ∧
      t.pc = s.pc + 2 ∧ t.fl = s.fl ∧ t.out = s.out ∧ SameRun s t

/-- 42_stack.md R175. That POP R7 leaves the popped byte + 1 is the spec's decision D10, and that SP wraps unchecked its
decision D11 (log entry 6). -/
def Obligations.PopLoadsFromTheStackPointer : Prop :=
  ∀ (s : State) (r : Byte) (h : r.toNat < 8),
    ∃ t, exec (.pop r) s = .next t ∧
      (if r.toNat = 7 then t.sp.toNat = ((s.mem.read s.sp.toNat).toNat + 1) % 256
       else t.reg ⟨r.toNat, h⟩ = s.mem.read s.sp.toNat ∧ t.sp.toNat = (s.sp.toNat + 1) % 256) ∧
      SameRegsBut [⟨r.toNat, h⟩, 7] s t ∧ SameMemory s t ∧
      t.pc = s.pc + 2 ∧ t.fl = s.fl ∧ t.out = s.out ∧ SameRun s t

/-- 43_control.md R191. That CALL R7 jumps to the new SP is the spec's decision D10, and that SP wraps unchecked its
decision D11 (log entry 6). -/
def Obligations.CallPushesTheReturnAddress : Prop :=
  ∀ (s : State) (r : Byte) (h : r.toNat < 8),
    ∃ t, exec (.call r) s = .next t ∧
      t.pc = (if r.toNat = 7 then t.sp else s.reg ⟨r.toNat, h⟩).toNat ∧
      t.sp.toNat = (s.sp.toNat + 255) % 256 ∧
      (stackControl .push s.sp).addr = t.sp ∧
      (t.mem.read (stackControl .push s.sp).addr.toNat).toNat = (s.pc + 2) % 256 ∧
      SameMemoryBut (stackControl .push s.sp).addr.toNat s t ∧ SameRegsBut [7] s t ∧
      t.fl = s.fl ∧ t.out = s.out ∧ SameRun s t

/-- 43_control.md R192, for every stack pointer: the byte at SP is the target, then SP goes up modulo 256. -/
def Obligations.RetPopsTheProgramCounter : Prop :=
  ∀ s : State,
    ∃ t, exec .ret s = .next t ∧ t.pc = (s.mem.read s.sp.toNat).toNat ∧ t.sp.toNat = (s.sp.toNat + 1) % 256 ∧
      SameRegsBut [7] s t ∧ SameMemory s t ∧ t.fl = s.fl ∧ t.out = s.out ∧ SameRun s t

/-- 43_control.md R193. -/
def Obligations.JmpTakesTheRegister : Prop :=
  ∀ (s : State) (r : Byte) (h : r.toNat < 8),
    ∃ t, exec (.jmp r) s = .next t ∧ t.pc = (s.reg ⟨r.toNat, h⟩).toNat ∧ SameRegsBut [] s t ∧ SameMemory s t ∧
      t.fl = s.fl ∧ t.out = s.out ∧ SameRun s t

/-- 43_control.md R194. -/
def Obligations.JeqJumpsExactlyWhenEqual : Prop :=
  ∀ (s : State) (r : Byte) (h : r.toNat < 8),
    ∃ t, exec (.jeq r) s = .next t ∧
      t.pc = (if s.fl.e = true then (s.reg ⟨r.toNat, h⟩).toNat else s.pc + 2) ∧
      SameRegsBut [] s t ∧ SameMemory s t ∧ t.fl = s.fl ∧ t.out = s.out ∧ SameRun s t

/-- 43_control.md R195. -/
def Obligations.JneJumpsExactlyWhenNotEqual : Prop :=
  ∀ (s : State) (r : Byte) (h : r.toNat < 8),
    ∃ t, exec (.jne r) s = .next t ∧
      t.pc = (if s.fl.e = false then (s.reg ⟨r.toNat, h⟩).toNat else s.pc + 2) ∧
      SameRegsBut [] s t ∧ SameMemory s t ∧ t.fl = s.fl ∧ t.out = s.out ∧ SameRun s t

/-- 43_control.md R196 (pc held: 90_conflicts.md C1). -/
def Obligations.HltHaltsAndHoldsThePc : Prop :=
  ∀ s : State,
    ∃ t, exec .hlt s = .next t ∧ t.runState = .halted ∧ t.pc = s.pc ∧ SameRegsBut [] s t ∧ SameMemory s t ∧
      t.fl = s.fl ∧ t.out = s.out ∧ t.faultRecord = s.faultRecord

/-- 30_encoding.md R101 (decision D8, log entry 6): the first register operand of 8 or more, `a` before `b`, raises
MemoryOutOfBounds with that byte as context; nothing else is written (60_exceptions.md R231, decision D12). -/
def Obligations.IllegalRegisterOperandFaults : Prop :=
  ∀ (i : Instr) (s : State) (b : Byte),
    (i.registerOperands.find? fun b => !namesRegister b) = some b →
    exec i s = .next (s.faultedWith .memoryOutOfBounds b.toNat)

/-! ## Encoding -/

/-- 30_encoding.md R85, R86 (opcode bytes: decision D1, log entry 4): decoding the bytes of any instruction, with any
operand bytes and whatever follows, gives that instruction and what follows. -/
def Obligations.DecodeOfEncode : Prop :=
  ∀ (i : Instr) (rest : List Byte), decode (encode i ++ rest) = .ok (i, rest)

/-- 30_encoding.md R86, R89: whatever decodes is the encoding of what it decodes to; no other bytes do. -/
def Obligations.OnlyEncodingsDecode : Prop :=
  ∀ (bs : List Byte) (i : Instr) (rest : List Byte), decode bs = .ok (i, rest) → bs = encode i ++ rest

/-- 30_encoding.md R85 (decision D1, log entry 4): one word of each family, its bytes written out from the table. -/
def Obligations.TableWordsDecode : Prop :=
  decodeTableWord 24 0b00001000_00000011_10000010 = some (.ldi 3 8) ∧
  decodeTableWord 24 0b00000001_00000010_10100000 = some (.add 2 1) ∧
  decodeTableWord 16 0b00000101_01000101 = some (.push 5) ∧
  decodeTableWord 16 0b00000111_01010101 = some (.jeq 7) ∧
  decodeTableWord 8 0b00010001 = some .ret

/-! ## The step -/

/-- 30_encoding.md R95: the step of a RUNNING core runs exactly the instruction its fetched bytes decode to; nothing is
added around it. -/
def Obligations.StepRunsTheDecodedInstruction : Prop :=
  ∀ (s : State) (bs : List Byte) (i : Instr) (rest : List Byte),
    s.runState = .running → fetch s = .ok bs → decode bs = .ok (i, rest) → step s = exec i s

/-- 30_encoding.md R95 to R98: when memory holds an instruction's bytes from the pc up, whole, the step of a RUNNING
core runs it. -/
def Obligations.StepRunsTheEncodedInstruction : Prop :=
  ∀ (s : State) (i : Instr),
    s.runState = .running → s.pc + (encode i).length ≤ 256 →
    (∀ k (h : k < (encode i).length), s.mem.read (s.pc + k) = (encode i)[k]) →
    step s = exec i s

/-- 60_exceptions.md R235 and 30_encoding.md R96 to R99 (decisions D5, D6, D7, log entry 6): the order of the checks
before the handler, at every pc a run reaches. -/
def Obligations.FetchFaultsInTheSpecOrder : Prop :=
  ∀ s : State, s.runState = .running → s.pc ≤ 256 →
    step s =
      if s.pc = 256 then .next (s.faultedWith .memoryOutOfBounds 256)
      else if operandCount (s.mem.read s.pc) = 3 then
        .next (s.faultedWith .unknownOpcode (s.mem.read s.pc).toNat)
      else if 256 < s.pc + instrLength (s.mem.read s.pc) then .next (s.faultedWith .memoryOutOfBounds 256)
      else
        match catalog (s.mem.read s.pc) with
        | none => .next (s.faultedWith .unknownOpcode (s.mem.read s.pc).toNat)
        | some m => exec (Instr.ofFields m (s.mem.read (s.pc + 1)) (s.mem.read (s.pc + 2))) s

/-- 30_encoding.md R95, R103: every instruction answers a next state in every state, and so does every step of a RUNNING
core: nothing is refused and nothing gets stuck. -/
def Obligations.RunningCoreAlwaysSteps : Prop :=
  (∀ i s, ∃ t, exec i s = .next t) ∧ ∀ s : State, s.runState = .running → ∃ t, step s = .next t

/-- 10_state.md R36: `run` starts with RUNNING, HLT moves the run state to HALTED, a fault moves it to FAULTED, both are
terminal, and no instruction reads it. The first clause, that the reset state is RUNNING before `run`, is the model's
choice (log entry 8, DEDUCED): R36 gives RUNNING when `run` starts and no value before. -/
def Obligations.RunStateFollowsItsRule : Prop :=
  (∀ rInit, (State.resetWith rInit).runState = .running) ∧
  (∀ k s, run k s = runLoop k { s with runState := .running }) ∧
  (∀ s : State, ∃ t, exec .hlt s = .next t ∧ t.runState = .halted) ∧
  (∀ (s : State) (r : Raise), (s.raise r).runState = .faulted) ∧
  (∀ s t, s.runState = .halted ∨ s.runState = .faulted → step s ≠ .next t) ∧
  ∀ i s t rs, exec i s = .next t →
    ∃ t', exec i { s with runState := rs } = .next t' ∧ t'.regs = t.regs ∧ t'.pc = t.pc ∧ t'.fl = t.fl ∧
      t'.out = t.out ∧ t'.mem = t.mem ∧ (t'.faultRecord = t.faultRecord)

/-- 60_exceptions.md R231, 30_encoding.md R103 (decision D12, log entry 6): a step that faults writes the run state and
the fault record and nothing else. -/
def Obligations.FaultsArePrecise : Prop :=
  ∀ s t : State, step s = .next t → t.runState = .faulted →
    t.regs = s.regs ∧ t.pc = s.pc ∧ t.fl = s.fl ∧ t.out = s.out ∧ t.mem = s.mem ∧
    ∃ kind context, t.faultRecord = some ⟨kind, s.pc, context⟩

/-- 10_state.md R31: FL is set only by the compare; if a step changes it, the step ran a CMP that did not fault, and
exactly one flag is set; the flags stay mutually exclusive. -/
def Obligations.FlagsWrittenOnlyByCmp : Prop :=
  ∀ s t : State, step s = .next t →
    (t.fl ≠ s.fl → (∃ a b, fetchDecode s = .ok (.cmp a b)) ∧ t.fl.count = 1 ∧ t.runState = .running) ∧
    (s.fl.count ≤ 1 → t.fl.count ≤ 1)

/-- 10_state.md R35: the log is empty at reset; a step leaves it or, running PRN, appends the register's byte; and the
core never reads it: with any other log, the step does the same and appends the same. -/
def Obligations.OutputLogOnlyGrowsByPrn : Prop :=
  (∀ rInit, (State.resetWith rInit).out = []) ∧
  ∀ s t : State, step s = .next t →
    ∃ e, t.out = s.out ++ e ∧
      (e = [] ∨ ∃ (r : Byte) (h : r.toNat < 8), fetchDecode s = .ok (.prn r) ∧ e = [s.reg ⟨r.toNat, h⟩]) ∧
      (∀ r : Byte, r.toNat < 8 → fetchDecode s = .ok (.prn r) → e ≠ []) ∧
      ∀ o, step { s with out := o } = .next { t with out := o ++ e }

/-- 20_memory.md R53: a step that changes a byte of memory ran PUSH or CALL, and the byte is the one at the new stack
pointer. -/
def Obligations.MemoryWrittenOnlyByPushAndCall : Prop :=
  ∀ (s t : State) (a : Nat), step s = .next t → t.mem.read a ≠ s.mem.read a →
    (∃ r, fetchDecode s = .ok (.push r) ∨ fetchDecode s = .ok (.call r)) ∧
    a = (stackControl .push s.sp).addr.toNat

/-- 10_state.md R25: a step that changes a register ran an instruction that the table lets write it. -/
def Obligations.RegistersWrittenOnlyByTheTable : Prop :=
  ∀ (s t : State) (q : RegIndex), step s = .next t → t.reg q ≠ s.reg q →
    ∃ i, fetchDecode s = .ok i ∧ q.val ∈ writtenRegs i

/-- 10_state.md R32: no instruction's result depends on G or L; CMP overwrites both. -/
def Obligations.GreaterAndLessAreNeverRead : Prop :=
  ∀ (s t : State) (g l : Bool), step s = .next t →
    ∃ t', step { s with fl := { s.fl with g := g, l := l } } = .next t' ∧
      t'.regs = t.regs ∧ t'.pc = t.pc ∧ t'.fl.e = t.fl.e ∧ t'.runState = t.runState ∧
      t'.faultRecord = t.faultRecord ∧ t'.out = t.out ∧ t'.mem = t.mem

/-- 43_control.md R196: a step halts the core exactly when it ran HLT. -/
def Obligations.OnlyHltHalts : Prop :=
  ∀ s t : State, step s = .next t → (t.runState = .halted ↔ fetchDecode s = .ok .hlt)

/-- 10_state.md R27 (decision D5, log entry 6): the pc becomes 256 only when an instruction that did not write it ends
exactly at 255. -/
def Obligations.PcReaches256OnlySequentially : Prop :=
  ∀ s t : State, step s = .next t → t.runState = .running → t.pc = 256 →
    ∃ i, fetchDecode s = .ok i ∧ s.pc + instrLength (opcode i.mnemonic) = 256 ∧
      i.mnemonic ∉ [.call, .ret, .jmp, .hlt]

/-- The invariant, over every state that meets it (10_state.md R27, R29, R34, R37; 60_exceptions.md R231 to R234; the
memory's form is the model's, log entry 7). -/
def Obligations.StepKeepsTheMachineInvariant : Prop :=
  ∀ s t : State, s.Inv → step s = .next t → t.Inv

/-- The reset state meets the invariant for every `R_INIT`. FL = 0b000 is the spec's decision D3 (log entry 5); that the
run state is RUNNING before `run`, so that the empty fault record fits it, is the model's choice (log entry 8, DEDUCED). -/
def Obligations.ResetMeetsTheMachineInvariant : Prop :=
  ∀ rInit : Fin 7 → Byte, (State.resetWith rInit).Inv

/-- A load keeps the invariant. -/
def Obligations.LoadKeepsTheMachineInvariant : Prop :=
  ∀ (bytes : List Byte) (s t : State), s.Inv → load bytes s = .ok t → t.Inv

/-- 10_state.md R41 to R48, 30_encoding.md R102 (decision D13): the sub-blocks wired together give the same step as the
pseudocode of 30_encoding.md R95, in every state. -/
def Obligations.SubBlocksRefineTheStep : Prop :=
  ∀ s : State, blockStep s = step s

/-! ## Sequences of two instructions -/

/-- 42_stack.md R175 (the source's property; for registers other than R7, whose forms are decision D10): POP after PUSH
gives the pushed value and restores SP. -/
def Obligations.PopUndoesPush : Prop :=
  ∀ (s : State) (r1 r2 : Byte) (h1 : r1.toNat < 7) (h2 : r2.toNat < 7),
    ∃ t u, exec (.push r1) s = .next t ∧ exec (.pop r2) t = .next u ∧
      u.reg ⟨r2.toNat, by omega⟩ = s.reg ⟨r1.toNat, by omega⟩ ∧ u.sp = s.sp ∧
      SameRegsBut [⟨r2.toNat, by omega⟩] s u ∧ u.pc = s.pc + 4

/-- 43_control.md R191, R192: RET after CALL returns to the address after the CALL (modulo 256) and restores SP. -/
def Obligations.RetReturnsAfterCall : Prop :=
  ∀ (s : State) (r : Byte), r.toNat < 8 →
    ∃ t u, exec (.call r) s = .next t ∧ exec .ret t = .next u ∧ u.pc = (s.pc + 2) % 256 ∧ u.sp = s.sp ∧
      SameRegsBut [] s u

/-- 40_load_output.md R122: LDI r,v and then PRN r emits exactly v. -/
def Obligations.PrnAfterLdiEmitsTheImmediate : Prop :=
  ∀ (s : State) (r v : Byte), r.toNat < 8 →
    ∃ t u, exec (.ldi r v) s = .next t ∧ exec (.prn r) t = .next u ∧ u.out = s.out ++ [v]

/-- 20_memory.md R64: a byte pushed to the address of the next instruction is the opcode the next step runs. -/
def Obligations.PushedByteIsFetchedNext : Prop :=
  ∀ (s t : State) (r : Byte) (i : Instr) (h : r.toNat < 7),
    exec (.push r) s = .next t → t.pc = (stackControl .push s.sp).addr.toNat → fetchDecode t = .ok i →
    opcode i.mnemonic = s.reg ⟨r.toNat, by omega⟩

/-! ## The run -/

/-- 60_exceptions.md R247, 70_reset_and_hazards.md R266: a run that ends, ends HALTED or FAULTED, and more fuel changes
nothing: there is exactly one run. -/
def Obligations.RunEndDoesNotDependOnFuel : Prop :=
  ∀ (k : Nat) (s t : State), run k s = .ended t →
    t.runState ≠ .running ∧ ∀ j, run (k + j) s = .ended t
end

