-- ==== Sys2Proof/Laws/Decode.lean ====
section
/-! SUPPORT. The small lemmas of the decoder's tables. -/

namespace Sys2Proof

/-- The catalog finds each entry by its own opcode: no two rows share a byte (30_encoding.md R86). -/
@[simp] theorem catalog_opcode (m : Mnemonic) : catalog (opcode m) = some m := by cases m <;> decide

/-- What the catalog finds has that opcode. -/
theorem opcode_of_catalog {op : Byte} {m : Mnemonic} (h : catalog op = some m) : op = opcode m := by
  have := List.find?_some h
  exact (beq_iff_eq.1 this).symm

/-- The catalog entry of an opcode byte, either way. -/
theorem catalog_eq_some_iff {op : Byte} {m : Mnemonic} : catalog op = some m ↔ op = opcode m :=
  ⟨opcode_of_catalog, fun h => by rw [h, catalog_opcode]⟩

/-- An operand count is 0 to 3. -/
theorem operandCount_lt (op : Byte) : operandCount op < 4 := (op.extractLsb' 6 2).isLt

/-- The operand count is one of the four values of two bits. -/
theorem operandCount_cases (op : Byte) :
    operandCount op = 0 ∨ operandCount op = 1 ∨ operandCount op = 2 ∨ operandCount op = 3 := by
  have := operandCount_lt op
  omega

/-- No catalog entry has bits 7:6 = 11 (30_encoding.md R85). -/
theorem operandCount_opcode_lt (m : Mnemonic) : operandCount (opcode m) < 3 := by cases m <;> decide

/-- Each opcode's bits 7:6 are its format's operand count (30_encoding.md R84). -/
theorem operandCount_opcode (m : Mnemonic) : operandCount (opcode m) = m.format.operandBytes := by
  cases m <;> decide

/-- The length of an opcode (30_encoding.md R81). -/
theorem instrLength_eq (op : Byte) : instrLength op = operandCount op + 1 := rfl

/-- Fields read back as the entry they were made of. -/
@[simp] theorem mnemonic_ofFields (m : Mnemonic) (a b : Byte) : (Instr.ofFields m a b).mnemonic = m := by
  cases m <;> rfl

/-- A well-formed instruction's register operands are all below 8. -/
theorem Instr.lt_of_wellFormed {i : Instr} (h : i.wellFormed = true) {b : Byte} (hb : b ∈ i.registerOperands) :
    b.toNat < 8 := by
  simpa [namesRegister] using List.all_eq_true.1 h b hb

end Sys2Proof
end

