-- ==== Sys2Proof/Laws/Memory.lean ====
section
/-! SUPPORT. The laws of memory: read after write, the canonical form, and the contract of the bounded accesses. -/

namespace Sys2Proof.Machine

theorem Memory.read_erase_self (m : Memory) (a : Nat) : (m.erase a).read a = Config.unlistedByte := by
  induction m with
  | nil => rfl
  | cons c m ih =>
    by_cases h : c.1 = a
    · simpa [Memory.erase, h] using ih
    · simpa [Memory.erase, h, Memory.read] using ih

theorem Memory.read_erase_of_ne {m : Memory} {a b : Nat} (hb : b ≠ a) : (m.erase a).read b = m.read b := by
  induction m with
  | nil => rfl
  | cons c m ih =>
    by_cases h : c.1 = a
    · have hcb : c.1 ≠ b := fun e => hb (e.symm.trans h)
      simpa [Memory.erase, h, Memory.read, hcb, hb.symm] using ih
    · simp only [Memory.erase] at ih
      simp [Memory.erase, h, Memory.read, ih]

theorem Memory.mem_erase {m : Memory} {a : Nat} {c : Host.Cell} : c ∈ m.erase a ↔ c ∈ m ∧ c.1 ≠ a := by
  simp [Memory.erase]

theorem Memory.mem_insert {m : Memory} {a : Nat} {v : Byte} {c : Host.Cell} :
    c ∈ m.insert a v ↔ c = (a, v) ∨ c ∈ m := by
  induction m with
  | nil => simp [Memory.insert]
  | cons d m ih =>
    simp only [Memory.insert]
    split
    · simp
    · simp [ih, or_left_comm]

theorem Memory.read_insert_self {m : Memory} {a : Nat} (h : ∀ c ∈ m, c.1 ≠ a) (v : Byte) :
    (m.insert a v).read a = v := by
  induction m with
  | nil => simp [Memory.insert, Memory.read]
  | cons c m ih =>
    simp only [Memory.insert]
    split
    · simp [Memory.read]
    · simp [Memory.read, h c (by simp), ih fun d hd => h d (by simp [hd])]

theorem Memory.read_insert_of_ne {m : Memory} {a b : Nat} (hb : b ≠ a) (v : Byte) :
    (m.insert a v).read b = m.read b := by
  induction m with
  | nil => simp [Memory.insert, Memory.read, hb.symm]
  | cons c m ih =>
    simp only [Memory.insert]
    split
    · simp [Memory.read, hb.symm]
    · simp [Memory.read, ih]

/-- A read after a write to the same address gives the value written. -/
@[simp] theorem Memory.read_write_self (m : Memory) (a : Nat) (v : Byte) : (m.write a v).read a = v := by
  unfold Memory.write
  split
  · next h => rw [Memory.read_erase_self, h]
  · exact Memory.read_insert_self (fun c hc => (Memory.mem_erase.1 hc).2) v

/-- A write leaves every other address alone. -/
theorem Memory.read_write_of_ne {m : Memory} {a b : Nat} (hb : b ≠ a) (v : Byte) :
    (m.write a v).read b = m.read b := by
  unfold Memory.write
  split
  · exact Memory.read_erase_of_ne hb
  · rw [Memory.read_insert_of_ne hb, Memory.read_erase_of_ne hb]

theorem Memory.read_write (m : Memory) (a b : Nat) (v : Byte) :
    (m.write a v).read b = if b = a then v else m.read b := by
  split
  · next h => rw [h, Memory.read_write_self]
  · next h => exact Memory.read_write_of_ne h v

theorem Memory.sorted_insert {m : Memory} {a : Nat} (hs : m.Pairwise fun c d => c.1 < d.1)
    (h : ∀ c ∈ m, c.1 ≠ a) (v : Byte) : (m.insert a v).Pairwise fun c d => c.1 < d.1 := by
  induction m with
  | nil => simp [Memory.insert]
  | cons c m ih =>
    have ⟨hc, hm⟩ := List.pairwise_cons.1 hs
    simp only [Memory.insert]
    split
    · next hlt =>
      refine List.pairwise_cons.2 ⟨fun d hd => ?_, hs⟩
      rcases List.mem_cons.1 hd with rfl | hd
      · exact hlt
      · exact lt_trans hlt (hc d hd)
    · next hge =>
      refine List.pairwise_cons.2 ⟨fun d hd => ?_, ih hm fun d hd => h d (by simp [hd])⟩
      rcases Memory.mem_insert.1 hd with rfl | hd
      · exact lt_of_le_of_ne (Nat.le_of_not_lt hge) (h c (by simp))
      · exact hc d hd

/-- A write inside the address space keeps the canonical form. -/
theorem Memory.wf_write {m : Memory} (hm : m.wf) {a : Nat} (ha : a < Config.memSize) (v : Byte) :
    (m.write a v).wf := by
  have hs : (m.erase a).Pairwise fun c d => c.1 < d.1 := hm.1.filter _
  unfold Memory.write
  split
  · exact ⟨hs, fun c hc => hm.2 c (Memory.mem_erase.1 hc).1⟩
  · next hv =>
    refine ⟨Memory.sorted_insert hs (fun c hc => (Memory.mem_erase.1 hc).2) v, fun c hc => ?_⟩
    rcases Memory.mem_insert.1 hc with rfl | hc
    · exact ⟨ha, hv⟩
    · exact hm.2 c (Memory.mem_erase.1 hc).1

/-- The memory of the reset state is canonical: it lists nothing. -/
theorem Memory.wf_nil : Memory.wf [] := by simp [Memory.wf]

/-- What a bounded read can answer. -/
theorem memRead_of_lt {m : Memory} {a : Nat} (h : a < Config.memSize) : memRead m a = .ok (m.read a) := by
  simp [memRead, h]

theorem memRead_of_ge {m : Memory} {a : Nat} (h : Config.memSize ≤ a) :
    memRead m a = .error ⟨.memoryOutOfBounds, a⟩ := by
  simp [memRead, Nat.not_lt.2 h]

/-- What a bounded write can answer. -/
theorem memWrite_of_lt {m : Memory} {a : Nat} (h : a < Config.memSize) (v : Nat) :
    memWrite m a v = .ok (m.write a (BitVec.ofNat 8 v)) := by
  simp [memWrite, h]

theorem memWrite_of_ge {m : Memory} {a : Nat} (h : Config.memSize ≤ a) (v : Nat) :
    memWrite m a v = .error ⟨.memoryOutOfBounds, a⟩ := by
  simp [memWrite, Nat.not_lt.2 h]

/-- A bounded write that answers keeps the canonical form. -/
theorem wf_of_memWrite {m m' : Memory} (hm : m.wf) {a v : Nat} (h : memWrite m a v = .ok m') : m'.wf := by
  unfold memWrite at h
  split at h
  · next ha =>
    cases h
    exact Memory.wf_write hm ha _
  · cases h

/-- Every byte is an address (20_memory.md R54). -/
theorem toNat_lt_memSize (b : Byte) : b.toNat < Config.memSize := b.isLt

/-- Placing bytes keeps the canonical form. -/
theorem wf_placeBytes {m : Memory} (hm : m.wf) (a : Nat) (bs : List Byte) : (placeBytes m a bs).wf := by
  induction bs generalizing m a with
  | nil => exact hm
  | cons b bs ih =>
    simp only [placeBytes]
    split
    · next ha => exact ih (Memory.wf_write hm ha b) (a + 1)
    · exact ih hm (a + 1)

/-- Placing bytes leaves every lower address alone. -/
theorem read_placeBytes_of_lt {m : Memory} {a x : Nat} (hx : x < a) (bs : List Byte) :
    (placeBytes m a bs).read x = m.read x := by
  induction bs generalizing m a with
  | nil => rfl
  | cons b bs ih =>
    simp only [placeBytes]
    rw [ih (by omega)]
    split
    · exact Memory.read_write_of_ne (by omega) b
    · rfl

/-- What reads after placing bytes that fit: the bytes in their place, and the old bytes above. -/
theorem read_placeBytes {m : Memory} {a : Nat} (bs : List Byte) (h : a + bs.length ≤ Config.memSize) :
    (∀ k (hk : k < bs.length), (placeBytes m a bs).read (a + k) = bs[k]) ∧
      ∀ x, a + bs.length ≤ x → (placeBytes m a bs).read x = m.read x := by
  induction bs generalizing m a with
  | nil => exact ⟨fun k hk => absurd hk (Nat.not_lt_zero k), fun x _ => rfl⟩
  | cons b bs ih =>
    simp only [List.length_cons] at h
    have ha : a < Config.memSize := by omega
    simp only [placeBytes, ha, if_true]
    have ⟨hin, hout⟩ := ih (m := m.write a b) (a := a + 1) (by omega)
    refine ⟨fun k hk => ?_, fun x hx => ?_⟩
    · cases k with
      | zero => simp [read_placeBytes_of_lt (Nat.lt_succ_self a)]
      | succ k => simpa [Nat.add_assoc, Nat.add_comm 1 k] using hin k (by simpa using hk)
    · simp only [List.length_cons] at hx
      rw [hout x (by omega), Memory.read_write_of_ne (by omega)]

end Sys2Proof.Machine
end

