-- ==== Sys2Proof/Laws/State.lean ====
section
/-! SUPPORT. One lemma per field of State per update, so that no proof unfolds a record update. -/

namespace Sys2Proof.Machine

@[simp] theorem State.raise_regs (s : State) (r : Raise) : (s.raise r).regs = s.regs := rfl
@[simp] theorem State.raise_pc (s : State) (r : Raise) : (s.raise r).pc = s.pc := rfl
@[simp] theorem State.raise_fl (s : State) (r : Raise) : (s.raise r).fl = s.fl := rfl
@[simp] theorem State.raise_runState (s : State) (r : Raise) : (s.raise r).runState = .faulted := rfl
@[simp] theorem State.raise_faultRecord (s : State) (r : Raise) : (s.raise r).faultRecord = some ⟨r.kind, s.pc, r.context⟩ := rfl
@[simp] theorem State.raise_out (s : State) (r : Raise) : (s.raise r).out = s.out := rfl
@[simp] theorem State.raise_mem (s : State) (r : Raise) : (s.raise r).mem = s.mem := rfl

@[simp] theorem State.setReg_regs (s : State) (q : RegIndex) (v : Byte) : (s.setReg q v).regs = s.regs.set q v := rfl
@[simp] theorem State.setReg_pc (s : State) (q : RegIndex) (v : Byte) : (s.setReg q v).pc = s.pc := rfl
@[simp] theorem State.setReg_fl (s : State) (q : RegIndex) (v : Byte) : (s.setReg q v).fl = s.fl := rfl
@[simp] theorem State.setReg_runState (s : State) (q : RegIndex) (v : Byte) : (s.setReg q v).runState = s.runState := rfl
@[simp] theorem State.setReg_faultRecord (s : State) (q : RegIndex) (v : Byte) : (s.setReg q v).faultRecord = s.faultRecord := rfl
@[simp] theorem State.setReg_out (s : State) (q : RegIndex) (v : Byte) : (s.setReg q v).out = s.out := rfl
@[simp] theorem State.setReg_mem (s : State) (q : RegIndex) (v : Byte) : (s.setReg q v).mem = s.mem := rfl

@[simp] theorem State.updatePc_regs (s : State) (sel : PcSel) : (s.updatePc sel).regs = s.regs := rfl
@[simp] theorem State.updatePc_pc (s : State) (sel : PcSel) : (s.updatePc sel).pc = nextPc sel s.pc := rfl
@[simp] theorem State.updatePc_fl (s : State) (sel : PcSel) : (s.updatePc sel).fl = s.fl := rfl
@[simp] theorem State.updatePc_runState (s : State) (sel : PcSel) : (s.updatePc sel).runState = s.runState := rfl
@[simp] theorem State.updatePc_faultRecord (s : State) (sel : PcSel) : (s.updatePc sel).faultRecord = s.faultRecord := rfl
@[simp] theorem State.updatePc_out (s : State) (sel : PcSel) : (s.updatePc sel).out = s.out := rfl
@[simp] theorem State.updatePc_mem (s : State) (sel : PcSel) : (s.updatePc sel).mem = s.mem := rfl

@[simp] theorem State.emit_regs (s : State) (v : Byte) : (s.emit v).regs = s.regs := rfl
@[simp] theorem State.emit_pc (s : State) (v : Byte) : (s.emit v).pc = s.pc := rfl
@[simp] theorem State.emit_fl (s : State) (v : Byte) : (s.emit v).fl = s.fl := rfl
@[simp] theorem State.emit_runState (s : State) (v : Byte) : (s.emit v).runState = s.runState := rfl
@[simp] theorem State.emit_faultRecord (s : State) (v : Byte) : (s.emit v).faultRecord = s.faultRecord := rfl
@[simp] theorem State.emit_out (s : State) (v : Byte) : (s.emit v).out = s.out ++ [v] := rfl
@[simp] theorem State.emit_mem (s : State) (v : Byte) : (s.emit v).mem = s.mem := rfl

@[simp] theorem State.halt_regs (s : State) : (s.halt).regs = s.regs := rfl
@[simp] theorem State.halt_pc (s : State) : (s.halt).pc = s.pc := rfl
@[simp] theorem State.halt_fl (s : State) : (s.halt).fl = s.fl := rfl
@[simp] theorem State.halt_runState (s : State) : (s.halt).runState = .halted := rfl
@[simp] theorem State.halt_faultRecord (s : State) : (s.halt).faultRecord = s.faultRecord := rfl
@[simp] theorem State.halt_out (s : State) : (s.halt).out = s.out := rfl
@[simp] theorem State.halt_mem (s : State) : (s.halt).mem = s.mem := rfl

@[simp] theorem State.setFlags_regs (s : State) (f : Flags) : (s.setFlags f).regs = s.regs := rfl
@[simp] theorem State.setFlags_pc (s : State) (f : Flags) : (s.setFlags f).pc = s.pc := rfl
@[simp] theorem State.setFlags_fl (s : State) (f : Flags) : (s.setFlags f).fl = f := rfl
@[simp] theorem State.setFlags_runState (s : State) (f : Flags) : (s.setFlags f).runState = s.runState := rfl
@[simp] theorem State.setFlags_faultRecord (s : State) (f : Flags) : (s.setFlags f).faultRecord = s.faultRecord := rfl
@[simp] theorem State.setFlags_out (s : State) (f : Flags) : (s.setFlags f).out = s.out := rfl
@[simp] theorem State.setFlags_mem (s : State) (f : Flags) : (s.setFlags f).mem = s.mem := rfl

@[simp] theorem State.setMem_regs (s : State) (m : Memory) : (s.setMem m).regs = s.regs := rfl
@[simp] theorem State.setMem_pc (s : State) (m : Memory) : (s.setMem m).pc = s.pc := rfl
@[simp] theorem State.setMem_fl (s : State) (m : Memory) : (s.setMem m).fl = s.fl := rfl
@[simp] theorem State.setMem_runState (s : State) (m : Memory) : (s.setMem m).runState = s.runState := rfl
@[simp] theorem State.setMem_faultRecord (s : State) (m : Memory) : (s.setMem m).faultRecord = s.faultRecord := rfl
@[simp] theorem State.setMem_out (s : State) (m : Memory) : (s.setMem m).out = s.out := rfl
@[simp] theorem State.setMem_mem (s : State) (m : Memory) : (s.setMem m).mem = m := rfl

@[simp] theorem State.withFetchWord_regs (s : State) (n w : Nat) : (s.withFetchWord n w).regs = s.regs := rfl
@[simp] theorem State.withFetchWord_pc (s : State) (n w : Nat) : (s.withFetchWord n w).pc = s.pc := rfl
@[simp] theorem State.withFetchWord_fl (s : State) (n w : Nat) : (s.withFetchWord n w).fl = s.fl := rfl
@[simp] theorem State.withFetchWord_runState (s : State) (n w : Nat) : (s.withFetchWord n w).runState = s.runState := rfl
@[simp] theorem State.withFetchWord_faultRecord (s : State) (n w : Nat) : (s.withFetchWord n w).faultRecord = s.faultRecord := rfl
@[simp] theorem State.withFetchWord_out (s : State) (n w : Nat) : (s.withFetchWord n w).out = s.out := rfl
@[simp] theorem State.withFetchWord_mem (s : State) (n w : Nat) : (s.withFetchWord n w).mem = placeBytes s.mem s.pc (tableBytes n w) := rfl

/-! Reading a register after each update. -/

@[simp] theorem State.reg_setReg_self (s : State) (q : RegIndex) (v : Byte) : (s.setReg q v).reg q = v := by
  simp [State.reg]

theorem State.reg_setReg_of_ne {s : State} {p q : RegIndex} {v : Byte} (h : p ≠ q) :
    (s.setReg q v).reg p = s.reg p := by
  have : (q : Nat) ≠ p := fun e => h (Fin.ext e.symm)
  simp [State.reg, Vector.getElem_set_ne, this]

theorem State.reg_setReg (s : State) (p q : RegIndex) (v : Byte) :
    (s.setReg q v).reg p = if p = q then v else s.reg p := by
  split
  · next h => rw [h, State.reg_setReg_self]
  · next h => exact State.reg_setReg_of_ne h

@[simp] theorem State.reg_raise (s : State) (r : Raise) (q : RegIndex) : (s.raise r).reg q = s.reg q := rfl
@[simp] theorem State.reg_updatePc (s : State) (sel : PcSel) (q : RegIndex) : (s.updatePc sel).reg q = s.reg q := rfl
@[simp] theorem State.reg_emit (s : State) (v : Byte) (q : RegIndex) : (s.emit v).reg q = s.reg q := rfl
@[simp] theorem State.reg_halt (s : State) (q : RegIndex) : (s.halt).reg q = s.reg q := rfl
@[simp] theorem State.reg_setFlags (s : State) (f : Flags) (q : RegIndex) : (s.setFlags f).reg q = s.reg q := rfl
@[simp] theorem State.reg_setMem (s : State) (m : Memory) (q : RegIndex) : (s.setMem m).reg q = s.reg q := rfl
@[simp] theorem State.reg_withFetchWord (s : State) (n w : Nat) (q : RegIndex) : (s.withFetchWord n w).reg q = s.reg q := rfl

/-- The stack pointer is register 7. -/
theorem State.sp_eq (s : State) : s.sp = s.reg spReg := rfl

/-! The program counter's selects. -/

@[simp] theorem nextPc_advance (len p : Nat) : nextPc (.advance len) p = p + len := rfl
@[simp] theorem nextPc_target (t : Byte) (p : Nat) : nextPc (.target t) p = t.toNat := rfl
@[simp] theorem nextPc_hold (p : Nat) : nextPc .hold p = p := rfl

/-! `stack_control`'s answers. -/

@[simp] theorem stackControl_push_addr (sp : Byte) : (stackControl .push sp).addr = sp - 1#8 := rfl
@[simp] theorem stackControl_push_spNext (sp : Byte) : (stackControl .push sp).spNext = sp - 1#8 := rfl
@[simp] theorem stackControl_pop_addr (sp : Byte) : (stackControl .pop sp).addr = sp := rfl
@[simp] theorem stackControl_pop_spNext (sp : Byte) : (stackControl .pop sp).spNext = sp + 1#8 := rfl

/-! `stackDrop` and `writeAlu`. -/

/-- Dropping the top of the stack is one register write. -/
theorem State.stackDrop_eq (s : State) : s.stackDrop = s.setReg spReg (s.sp + 1#8) := rfl

/-- A result alone is one register write. -/
@[simp] theorem State.writeAlu_result (s : State) (q : RegIndex) (v : Byte) :
    s.writeAlu q ⟨some v, none⟩ = s.setReg q v := rfl

/-- Flags alone are one write of `FL`. -/
@[simp] theorem State.writeAlu_flags (s : State) (q : RegIndex) (f : Flags) :
    s.writeAlu q ⟨none, some f⟩ = s.setFlags f := rfl

end Sys2Proof.Machine
end

