-- ==== Sys2Proof/Laws/Ops.lean ====
section
/-! SUPPORT. One specification lemma per shared operation, so that proofs about instructions cite it instead of
unfolding it. -/

namespace Sys2Proof.Machine

@[simp] theorem State.orFault_ok {α : Type} (s : State) (a : α) (k : α → StepOutcome) :
    s.orFault (.ok a) k = k a := rfl

@[simp] theorem State.orFault_error {α : Type} (s : State) (r : Raise) (k : α → StepOutcome) :
    s.orFault (.error r) k = .next (s.raise r) := rfl

/-- Everything `orFault` can do when it answers a next state. -/
theorem State.orFault_next {α : Type} {s t : State} {x : Except Raise α} {k : α → StepOutcome}
    (h : s.orFault x k = .next t) : (∃ a, x = .ok a ∧ k a = .next t) ∨ ∃ r, x = .error r ∧ t = s.raise r := by
  cases x with
  | ok a => exact .inl ⟨a, rfl, h⟩
  | error r => exact .inr ⟨r, rfl, by cases h; rfl⟩

/-- A register operand below 8 names that register. -/
theorem regOperand_of_lt {b : Byte} (h : b.toNat < 8) : regOperand b = .ok ⟨b.toNat, h⟩ := by
  simp [regOperand, h]

/-- A register operand of 8 or more faults with the byte as context. -/
theorem regOperand_of_ge {b : Byte} (h : 8 ≤ b.toNat) : regOperand b = .error ⟨.memoryOutOfBounds, b.toNat⟩ := by
  simp [regOperand, Nat.not_lt.2 h]

/-- Everything the register check can answer. -/
theorem regOperand_cases (b : Byte) :
    (∃ q : RegIndex, regOperand b = .ok q ∧ q.val = b.toNat) ∨
      (8 ≤ b.toNat ∧ regOperand b = .error ⟨.memoryOutOfBounds, b.toNat⟩) := by
  by_cases h : b.toNat < 8
  · exact .inl ⟨⟨b.toNat, h⟩, regOperand_of_lt h, rfl⟩
  · exact .inr ⟨Nat.le_of_not_lt h, regOperand_of_ge (Nat.le_of_not_lt h)⟩

@[simp] theorem immediate_eq (b : Byte) : immediate b = b := rfl

/-- The push primitive always succeeds (20_memory.md R54): SP goes down and one byte is written at the new SP. -/
@[simp] theorem State.pushByte_eq (s : State) (value : State → Nat) :
    s.pushByte value = .ok ((s.setReg spReg (s.sp - 1#8)).setMem
      (s.mem.write (s.sp - 1#8).toNat (BitVec.ofNat 8 (value (s.setReg spReg (s.sp - 1#8)))))) := by
  simp only [State.pushByte, stackControl_push_addr, stackControl_push_spNext, memWrite_of_lt (toNat_lt_memSize _),
    State.setReg_mem]

/-- The read half of the pop primitive always succeeds (20_memory.md R54). -/
@[simp] theorem State.stackTop_eq (s : State) : s.stackTop = .ok (s.mem.read s.sp.toNat) := by
  simp only [State.stackTop, stackControl_pop_addr, memRead_of_lt (toNat_lt_memSize _)]

/-- The ALU never faults on the three operations the instructions ask for (41_alu.md R144). -/
@[simp] theorem aluRequest_add (opc a b : Byte) : aluRequest .add opc a b = .ok ⟨some (aluAdd a b), none⟩ := rfl
@[simp] theorem aluRequest_mul (opc a b : Byte) : aluRequest .mul opc a b = .ok ⟨some (aluMultiply a b), none⟩ := rfl
@[simp] theorem aluRequest_cmp (opc a b : Byte) : aluRequest .cmp opc a b = .ok ⟨none, some (compareFlags a b)⟩ := rfl

/-- The advance of each catalog entry, in bytes. -/
@[simp] theorem advanceOf_ldi : advanceOf .ldi = .advance 3 := by decide
@[simp] theorem advanceOf_prn : advanceOf .prn = .advance 2 := by decide
@[simp] theorem advanceOf_add : advanceOf .add = .advance 3 := by decide
@[simp] theorem advanceOf_mul : advanceOf .mul = .advance 3 := by decide
@[simp] theorem advanceOf_cmp : advanceOf .cmp = .advance 3 := by decide
@[simp] theorem advanceOf_push : advanceOf .push = .advance 2 := by decide
@[simp] theorem advanceOf_pop : advanceOf .pop = .advance 2 := by decide
@[simp] theorem advanceOf_jmp : advanceOf .jmp = .advance 2 := by decide
@[simp] theorem advanceOf_jeq : advanceOf .jeq = .advance 2 := by decide
@[simp] theorem advanceOf_jne : advanceOf .jne = .advance 2 := by decide

/-- A CALL is two bytes long, so its return address is `p + 2`. -/
@[simp] theorem instrLength_call : instrLength (opcode .call) = 2 := by decide

/-- A compare sets exactly one flag. -/
@[simp] theorem compareFlags_count (a b : Byte) : (compareFlags a b).count = 1 := by
  unfold compareFlags
  split
  · rfl
  · split <;> rfl

end Sys2Proof.Machine
end

