-- ==== Sys2Proof/Laws/Exec.lean ====
section
/-! SUPPORT. One lemma per instruction: the state it answers when its register operands are legal, in terms of the named
updates; and what the shared `aluInstr`, `jumpIf` and the fetch can do. -/

namespace Sys2Proof.Machine

variable {s t : State} {r a b : Byte}

/-- LDI with a legal register operand. -/
theorem exec_ldi_of_lt (s : State) (i : Byte) (h : r.toNat < 8) :
    exec (.ldi r i) s = .next ((s.setReg ⟨r.toNat, h⟩ i).updatePc (.advance 3)) := by
  simp only [exec, execLdi, regOperand_of_lt h, State.orFault_ok, immediate_eq, advanceOf_ldi]

/-- PRN with a legal register operand. -/
theorem exec_prn_of_lt (s : State) (h : r.toNat < 8) :
    exec (.prn r) s = .next ((s.emit (s.reg ⟨r.toNat, h⟩)).updatePc (.advance 2)) := by
  simp only [exec, execPrn, regOperand_of_lt h, State.orFault_ok, advanceOf_prn]

/-- The three ALU instructions with legal register operands, for an operation the ALU has. -/
theorem aluInstr_of_lt (s : State) {op : AluOp} {m : Mnemonic} {o : AluOut} (ha : a.toNat < 8) (hb : b.toNat < 8)
    (ho : aluRequest op (opcode m) (s.reg ⟨a.toNat, ha⟩) (s.reg ⟨b.toNat, hb⟩) = .ok o) :
    aluInstr op m a b s = .next ((s.writeAlu ⟨a.toNat, ha⟩ o).updatePc (advanceOf m)) := by
  simp only [aluInstr, regOperand_of_lt ha, regOperand_of_lt hb, State.orFault_ok, ho]

/-- ADD with legal register operands. -/
theorem exec_add_of_lt (s : State) (ha : a.toNat < 8) (hb : b.toNat < 8) :
    exec (.add a b) s = .next ((s.setReg ⟨a.toNat, ha⟩
      (aluAdd (s.reg ⟨a.toNat, ha⟩) (s.reg ⟨b.toNat, hb⟩))).updatePc (.advance 3)) := by
  rw [exec, execAdd, aluInstr_of_lt s ha hb (aluRequest_add _ _ _), State.writeAlu_result, advanceOf_add]

/-- MUL with legal register operands. -/
theorem exec_mul_of_lt (s : State) (ha : a.toNat < 8) (hb : b.toNat < 8) :
    exec (.mul a b) s = .next ((s.setReg ⟨a.toNat, ha⟩
      (aluMultiply (s.reg ⟨a.toNat, ha⟩) (s.reg ⟨b.toNat, hb⟩))).updatePc (.advance 3)) := by
  rw [exec, execMul, aluInstr_of_lt s ha hb (aluRequest_mul _ _ _), State.writeAlu_result, advanceOf_mul]

/-- CMP with legal register operands. -/
theorem exec_cmp_of_lt (s : State) (ha : a.toNat < 8) (hb : b.toNat < 8) :
    exec (.cmp a b) s = .next ((s.setFlags
      (compareFlags (s.reg ⟨a.toNat, ha⟩) (s.reg ⟨b.toNat, hb⟩))).updatePc (.advance 3)) := by
  rw [exec, execCmp, aluInstr_of_lt s ha hb (aluRequest_cmp _ _ _), State.writeAlu_flags, advanceOf_cmp]

/-- PUSH with a legal register operand. -/
theorem exec_push_of_lt (s : State) (h : r.toNat < 8) :
    exec (.push r) s = .next (((s.setReg spReg (s.sp - 1#8)).setMem (s.mem.write (s.sp - 1#8).toNat
      ((s.setReg spReg (s.sp - 1#8)).reg ⟨r.toNat, h⟩))).updatePc (.advance 2)) := by
  simp only [exec, execPush, regOperand_of_lt h, State.orFault_ok, State.pushByte_eq, advanceOf_push,
    BitVec.ofNat_toNat, BitVec.setWidth_eq]

/-- POP with a legal register operand. -/
theorem exec_pop_of_lt (s : State) (h : r.toNat < 8) :
    exec (.pop r) s = .next ((s.setReg ⟨r.toNat, h⟩ (s.mem.read s.sp.toNat)).stackDrop.updatePc (.advance 2)) := by
  simp only [exec, execPop, regOperand_of_lt h, State.orFault_ok, State.stackTop_eq, advanceOf_pop]

/-- CALL with a legal register operand. -/
theorem exec_call_of_lt (s : State) (h : r.toNat < 8) :
    exec (.call r) s = .next (((s.setReg spReg (s.sp - 1#8)).setMem (s.mem.write (s.sp - 1#8).toNat
      (BitVec.ofNat 8 (s.pc + 2)))).updatePc (.target ((s.setReg spReg (s.sp - 1#8)).reg ⟨r.toNat, h⟩))) := by
  simp only [exec, execCall, regOperand_of_lt h, State.orFault_ok, State.pushByte_eq, instrLength_call,
    State.reg_setMem]

/-- RET. -/
theorem exec_ret (s : State) :
    exec .ret s = .next ((s.setReg spReg (s.sp + 1#8)).updatePc (.target (s.mem.read s.sp.toNat))) := by
  simp only [exec, execRet, State.stackTop_eq, State.orFault_ok, State.stackDrop_eq]

/-- The three jumps with a legal register operand. -/
theorem jumpIf_of_lt (s : State) (taken : Bool) (m : Mnemonic) (h : r.toNat < 8) :
    jumpIf taken m r s =
      .next (s.updatePc (if taken = true then .target (s.reg ⟨r.toNat, h⟩) else advanceOf m)) := by
  simp only [jumpIf, regOperand_of_lt h, State.orFault_ok]

/-- JMP with a legal register operand. -/
theorem exec_jmp_of_lt (s : State) (h : r.toNat < 8) :
    exec (.jmp r) s = .next (s.updatePc (.target (s.reg ⟨r.toNat, h⟩))) := by
  rw [exec, execJmp, jumpIf_of_lt s _ _ h, if_pos rfl]

/-- JEQ with a legal register operand. -/
theorem exec_jeq_of_lt (s : State) (h : r.toNat < 8) :
    exec (.jeq r) s =
      .next (s.updatePc (if s.fl.e = true then .target (s.reg ⟨r.toNat, h⟩) else .advance 2)) := by
  rw [exec, execJeq, jumpIf_of_lt s _ _ h, advanceOf_jeq]

/-- JNE with a legal register operand. -/
theorem exec_jne_of_lt (s : State) (h : r.toNat < 8) :
    exec (.jne r) s =
      .next (s.updatePc (if (!s.fl.e) = true then .target (s.reg ⟨r.toNat, h⟩) else .advance 2)) := by
  rw [exec, execJne, jumpIf_of_lt s _ _ h, advanceOf_jne]

/-- HLT. -/
theorem exec_hlt (s : State) : exec .hlt s = .next (s.halt.updatePc .hold) := rfl

/-- A step answers a next state only from RUNNING, and then by a fault before the handler or by the decoded
instruction. -/
theorem step_next (h : step s = .next t) :
    s.runState = .running ∧
      ((∃ i, fetchDecode s = .ok i ∧ exec i s = .next t) ∨ ∃ e, fetchDecode s = .error e ∧ t = s.raise e) := by
  unfold step at h
  split at h
  · cases h
  · cases h
  · next hr => exact ⟨hr, State.orFault_next h⟩

/-- Reading a range of bytes that lies inside memory answers those bytes. -/
theorem readBytes_of_le {m : Memory} {a k : Nat} (h : a + k ≤ Config.memSize) :
    readBytes m a k = .ok ((List.range' a k).map m.read) := by
  induction k generalizing a with
  | zero => rfl
  | succ k ih =>
    simp [readBytes, memRead_of_lt (show a < Config.memSize by omega), ih (show a + 1 + k ≤ Config.memSize by omega),
      List.range'_succ]

/-- What a range that answers must be. -/
theorem readBytes_ok {m : Memory} {a k : Nat} {bs : List Byte} (h : readBytes m a k = .ok bs) :
    bs.length = k ∧ (0 < k → a + k ≤ Config.memSize) := by
  induction k generalizing a bs with
  | zero => cases h; exact ⟨rfl, fun h => absurd h (lt_irrefl 0)⟩
  | succ k ih =>
    rw [readBytes] at h
    by_cases ha : a < Config.memSize
    · rw [memRead_of_lt ha] at h
      cases hr : readBytes m (a + 1) k with
      | error e => rw [hr] at h; cases h
      | ok cs =>
        rw [hr] at h
        cases h
        have ⟨hl, hk⟩ := ih hr
        exact ⟨by simp [hl], fun _ => by
          rcases Nat.eq_zero_or_pos k with rfl | hp
          · omega
          · have := hk hp; omega⟩
    · rw [memRead_of_ge (Nat.le_of_not_lt ha)] at h
      cases h

/-- What a fetch that answers must be: an opcode read at the pc, inside memory, and the operand bytes its length needs. -/
theorem fetch_ok {bs : List Byte} (h : fetch s = .ok bs) :
    s.pc < Config.memSize ∧ operandCount (s.mem.read s.pc) ≠ 3 ∧
      s.pc + instrLength (s.mem.read s.pc) ≤ Config.memSize ∧
      bs = s.mem.read s.pc :: (List.range' (s.pc + 1) (operandCount (s.mem.read s.pc))).map s.mem.read := by
  unfold fetch at h
  by_cases hp : s.pc < Config.memSize
  · simp only [memRead_of_lt hp] at h
    split at h
    · cases h
    · next h3 =>
      cases hr : readBytes s.mem (s.pc + 1) (operandCount (s.mem.read s.pc)) with
      | error e => rw [hr] at h; cases h
      | ok cs =>
        have hle : s.pc + 1 + operandCount (s.mem.read s.pc) ≤ Config.memSize := by
          rcases Nat.eq_zero_or_pos (operandCount (s.mem.read s.pc)) with h0 | hpos
          · omega
          · exact (readBytes_ok hr).2 hpos
        rw [readBytes_of_le hle] at hr h
        cases h
        exact ⟨hp, h3, by rw [instrLength_eq]; omega, rfl⟩
  · rw [memRead_of_ge (Nat.le_of_not_lt hp)] at h
    cases h

/-- The instruction a fetch and decode answers: its opcode stands at the pc and its last byte inside memory. -/
theorem fetchDecode_ok {i : Instr} (h : fetchDecode s = .ok i) :
    s.pc + instrLength (opcode i.mnemonic) ≤ Config.memSize ∧ s.mem.read s.pc = opcode i.mnemonic := by
  unfold fetchDecode at h
  cases hf : fetch s with
  | error e => rw [hf] at h; cases h
  | ok bs =>
    obtain ⟨_, h3, hle, rfl⟩ := fetch_ok hf
    rw [hf] at h
    simp only [decode, if_neg h3, List.length_map, List.length_range', lt_irrefl, if_false] at h
    cases hc : catalog (s.mem.read s.pc) with
    | none => rw [hc] at h; cases h
    | some m =>
      rw [hc] at h
      cases h
      rw [mnemonic_ofFields, ← opcode_of_catalog hc]
      exact ⟨hle, rfl⟩

/-- A fault before the handler is one of the fetch and decode faults (60_exceptions.md R232, R233). -/
theorem fetchDecode_error {e : Raise} (h : fetchDecode s = .error e) :
    (e.kind = .memoryOutOfBounds ∧ Config.memSize ≤ e.context ∧ (s.pc ≤ Config.memSize → e.context = Config.memSize)) ∨
      (e.kind = .unknownOpcode ∧ s.pc < Config.memSize ∧ e.context = (s.mem.read s.pc).toNat ∧
        catalog (s.mem.read s.pc) = none) := by
  have hr : ∀ {k a : Nat}, readBytes s.mem a k = .error e →
      e.kind = .memoryOutOfBounds ∧ Config.memSize ≤ e.context ∧ (a ≤ Config.memSize → e.context = Config.memSize) := by
    intro k
    induction k with
    | zero => intro a h; cases h
    | succ k ih =>
      intro a h
      rw [readBytes] at h
      by_cases ha : a < Config.memSize
      · rw [memRead_of_lt ha] at h
        cases hk : readBytes s.mem (a + 1) k with
        | error e' =>
          rw [hk] at h
          cases h
          have ⟨h1, h2, h3⟩ := ih hk
          exact ⟨h1, h2, fun _ => h3 (by omega)⟩
        | ok bs => rw [hk] at h; cases h
      · rw [memRead_of_ge (Nat.le_of_not_lt ha)] at h
        cases h
        exact ⟨rfl, Nat.le_of_not_lt ha, fun h => le_antisymm h (Nat.le_of_not_lt ha)⟩
  by_cases hp : s.pc < Config.memSize
  · have hno3 : operandCount (s.mem.read s.pc) = 3 → catalog (s.mem.read s.pc) = none := by
      intro h3
      cases hc : catalog (s.mem.read s.pc) with
      | none => rfl
      | some m =>
        have := operandCount_opcode_lt m
        rw [← opcode_of_catalog hc] at this
        omega
    unfold fetchDecode at h
    cases hf : fetch s with
    | error e' =>
      rw [hf] at h
      cases h
      simp only [fetch, memRead_of_lt hp] at hf
      split at hf
      · next h3 => cases hf; exact .inr ⟨rfl, hp, rfl, hno3 h3⟩
      · cases hk : readBytes s.mem (s.pc + 1) (operandCount (s.mem.read s.pc)) with
        | error e' =>
          rw [hk] at hf
          cases hf
          have ⟨h1, h2, h3⟩ := hr hk
          exact .inl ⟨h1, h2, fun _ => h3 (by omega)⟩
        | ok bs => rw [hk] at hf; cases hf
    | ok bs =>
      obtain ⟨_, h3, hle, rfl⟩ := fetch_ok hf
      rw [hf] at h
      simp only [decode, if_neg h3, List.length_map, List.length_range', lt_irrefl, if_false] at h
      cases hc : catalog (s.mem.read s.pc) with
      | none => rw [hc] at h; cases h; exact .inr ⟨rfl, hp, rfl, rfl⟩
      | some m => rw [hc] at h; cases h
  · have hp := Nat.le_of_not_lt hp
    have : fetch s = .error ⟨.memoryOutOfBounds, s.pc⟩ := by simp only [fetch, memRead_of_ge hp]
    simp only [fetchDecode, this] at h
    cases h
    exact .inl ⟨rfl, hp, fun h => le_antisymm h hp⟩

end Sys2Proof.Machine
end

