-- ==== Sys2Proof/Laws/Inversion.lean ====
section
/-! SUPPORT. What an instruction can do when it answers a next state, said once: it took the register-operand fault, or
it completed, and then `Completes` says what it changed. -/

namespace Sys2Proof.Machine

/-- An instruction is well-formed, or one of its register operands is 8 or more. -/
theorem wellFormed_or_illegal (i : Instr) :
    i.wellFormed = true ∨ ∃ b, (i.registerOperands.find? fun b => !namesRegister b) = some b ∧ 8 ≤ b.toNat := by
  by_cases h : i.wellFormed = true
  · exact .inl h
  · cases hf : i.registerOperands.find? fun b => !namesRegister b with
    | none => exact absurd (by simpa [Instr.wellFormed] using hf) h
    | some b => exact .inr ⟨b, rfl, by simpa [namesRegister] using List.find?_some hf⟩

/-- To prove something of every well-formed instruction, prove it of each constructor with legal operands. -/
theorem wellFormed_cases {P : Instr → Prop} {i : Instr} (hw : i.wellFormed = true)
    (ldi : ∀ r v, r.toNat < 8 → P (.ldi r v)) (prn : ∀ r, r.toNat < 8 → P (.prn r))
    (add : ∀ a b, a.toNat < 8 → b.toNat < 8 → P (.add a b)) (mul : ∀ a b, a.toNat < 8 → b.toNat < 8 → P (.mul a b))
    (cmp : ∀ a b, a.toNat < 8 → b.toNat < 8 → P (.cmp a b)) (push : ∀ r, r.toNat < 8 → P (.push r))
    (pop : ∀ r, r.toNat < 8 → P (.pop r)) (call : ∀ r, r.toNat < 8 → P (.call r)) (ret : P .ret)
    (jmp : ∀ r, r.toNat < 8 → P (.jmp r)) (jeq : ∀ r, r.toNat < 8 → P (.jeq r))
    (jne : ∀ r, r.toNat < 8 → P (.jne r)) (hlt : P .hlt) : P i := by
  cases i <;> simp only [Instr.wellFormed, Instr.registerOperands, namesRegister, List.all_cons, List.all_nil,
    Bool.and_true, Bool.and_eq_true, decide_eq_true_eq] at hw
  case ldi r v => exact ldi r v hw
  case prn r => exact prn r hw
  case add a b => exact add a b hw.1 hw.2
  case mul a b => exact mul a b hw.1 hw.2
  case cmp a b => exact cmp a b hw.1 hw.2
  case push r => exact push r hw
  case pop r => exact pop r hw
  case call r => exact call r hw
  case ret => exact ret
  case jmp r => exact jmp r hw
  case jeq r => exact jeq r hw
  case jne r => exact jne r hw
  case hlt => exact hlt

/-- A register check that fails anywhere in a list of operands makes `orFault` take a MemoryOutOfBounds. -/
theorem exec_of_illegal {i : Instr} {b : Byte} (s : State) (hb : b ∈ i.registerOperands) (h8 : 8 ≤ b.toNat) :
    ∃ c, 8 ≤ c ∧ c < 256 ∧ exec i s = .next (s.raise ⟨.memoryOutOfBounds, c⟩) := by
  have one : ∀ (a : Byte) (k : RegIndex → StepOutcome), 8 ≤ a.toNat →
      s.orFault (regOperand a) k = .next (s.raise ⟨.memoryOutOfBounds, a.toNat⟩) := by
    intro a k ha
    rw [regOperand_of_ge ha, State.orFault_error]
  have two : ∀ (op : AluOp) (m : Mnemonic) (x y : Byte), b = x ∨ b = y →
      ∃ c, 8 ≤ c ∧ c < 256 ∧ aluInstr op m x y s = .next (s.raise ⟨.memoryOutOfBounds, c⟩) := by
    intro op m x y hxy
    by_cases hx : x.toNat < 8
    · have hy : 8 ≤ y.toNat := by
        rcases hxy with rfl | rfl
        · omega
        · exact h8
      exact ⟨y.toNat, hy, y.isLt, by simp only [aluInstr, regOperand_of_lt hx, State.orFault_ok, one y _ hy]⟩
    · have hx := Nat.le_of_not_lt hx
      exact ⟨x.toNat, hx, x.isLt, one x _ hx⟩
  cases i <;> simp only [Instr.registerOperands, List.mem_cons, List.not_mem_nil, or_false] at hb
  case ldi | prn | push | pop | call | jmp | jeq | jne =>
    subst hb
    exact ⟨b.toNat, h8, b.isLt, one b _ h8⟩
  case add x y => exact two .add .add x y hb
  case mul x y => exact two .mul .mul x y hb
  case cmp x y => exact two .cmp .cmp x y hb

/-- What an instruction that completed in `t` changed from `s`. -/
structure Completes (i : Instr) (s t : State) : Prop where
  faultRecord : t.faultRecord = s.faultRecord
  runState : (i = .hlt ∧ t.runState = .halted ∧ t.pc = s.pc) ∨ (i ≠ .hlt ∧ t.runState = s.runState)
  pc : t.pc < 256 ∨ i = .hlt ∨
    (t.pc = s.pc + instrLength (opcode i.mnemonic) ∧ i.mnemonic ∉ [Mnemonic.call, .ret, .jmp, .hlt])
  fl : t.fl = s.fl ∨ ∃ a b, i = .cmp a b ∧ t.fl.count = 1
  out : (t.out = s.out ∧ ∀ r, i ≠ .prn r) ∨
    ∃ (r : Byte) (h : r.toNat < 8), i = .prn r ∧ t.out = s.out ++ [s.reg ⟨r.toNat, h⟩]
  mem : t.mem = s.mem ∨ ∃ r v, (i = .push r ∨ i = .call r) ∧ t.mem = s.mem.write (s.sp - 1#8).toNat v
  regs : ∀ q, t.reg q ≠ s.reg q → q.val ∈ writtenRegs i

/-- A write of one register leaves the others. -/
theorem eq_of_reg_setReg_ne {s : State} {p q : RegIndex} {v : Byte} (h : (s.setReg q v).reg p ≠ s.reg p) : p = q := by
  by_contra hne
  exact h (State.reg_setReg_of_ne hne)

/-- The sequential advance of a completed instruction, as `Completes.pc` has it. -/
theorem advance_pc {i : Instr} {s t : State} {n : Nat} (hn : i.mnemonic.format.operandBytes + 1 = n)
    (hm : i.mnemonic ∉ [Mnemonic.call, .ret, .jmp, .hlt]) (ht : t.pc = s.pc + n) :
    t.pc < 256 ∨ i = .hlt ∨
      (t.pc = s.pc + instrLength (opcode i.mnemonic) ∧ i.mnemonic ∉ [Mnemonic.call, .ret, .jmp, .hlt]) :=
  .inr (.inr ⟨by rw [instrLength_eq, operandCount_opcode, hn, ht], hm⟩)

/-- A well-formed instruction completes. -/
theorem completes_of_wellFormed {i : Instr} {s t : State} (hw : i.wellFormed = true) (hx : exec i s = .next t) :
    Completes i s t := by
  revert hx
  refine wellFormed_cases (P := fun i => exec i s = .next t → Completes i s t) hw ?_ ?_ ?_ ?_ ?_ ?_ ?_ ?_ ?_ ?_ ?_ ?_ ?_
  · intro r v h hx
    rw [exec_ldi_of_lt s v h] at hx
    cases hx
    exact ⟨rfl, .inr ⟨by simp, rfl⟩, advance_pc rfl (by simp [Instr.mnemonic]) rfl, .inl rfl, .inl ⟨rfl, by simp⟩, .inl rfl,
      fun q hq => by simp [writtenRegs, eq_of_reg_setReg_ne hq]⟩
  · intro r h hx
    rw [exec_prn_of_lt s h] at hx
    cases hx
    exact ⟨rfl, .inr ⟨by simp, rfl⟩, advance_pc rfl (by simp [Instr.mnemonic]) rfl, .inl rfl, .inr ⟨r, h, rfl, rfl⟩,
      .inl rfl, fun q hq => absurd rfl hq⟩
  · intro a b ha hb hx
    rw [exec_add_of_lt s ha hb] at hx
    cases hx
    exact ⟨rfl, .inr ⟨by simp, rfl⟩, advance_pc rfl (by simp [Instr.mnemonic]) rfl, .inl rfl, .inl ⟨rfl, by simp⟩, .inl rfl,
      fun q hq => by simp [writtenRegs, eq_of_reg_setReg_ne hq]⟩
  · intro a b ha hb hx
    rw [exec_mul_of_lt s ha hb] at hx
    cases hx
    exact ⟨rfl, .inr ⟨by simp, rfl⟩, advance_pc rfl (by simp [Instr.mnemonic]) rfl, .inl rfl, .inl ⟨rfl, by simp⟩, .inl rfl,
      fun q hq => by simp [writtenRegs, eq_of_reg_setReg_ne hq]⟩
  · intro a b ha hb hx
    rw [exec_cmp_of_lt s ha hb] at hx
    cases hx
    exact ⟨rfl, .inr ⟨by simp, rfl⟩, advance_pc rfl (by simp [Instr.mnemonic]) rfl, .inr ⟨a, b, rfl, by simp⟩,
      .inl ⟨rfl, by simp⟩, .inl rfl, fun q hq => absurd rfl hq⟩
  · intro r h hx
    rw [exec_push_of_lt s h] at hx
    cases hx
    exact ⟨rfl, .inr ⟨by simp, rfl⟩, advance_pc rfl (by simp [Instr.mnemonic]) rfl, .inl rfl, .inl ⟨rfl, by simp⟩,
      .inr ⟨r, _, .inl rfl, rfl⟩, fun q hq => by simp [writtenRegs, eq_of_reg_setReg_ne hq, spReg]⟩
  · intro r h hx
    rw [exec_pop_of_lt s h] at hx
    cases hx
    refine ⟨rfl, .inr ⟨by simp, rfl⟩, advance_pc rfl (by simp [Instr.mnemonic]) rfl, .inl rfl, .inl ⟨rfl, by simp⟩, .inl rfl,
      fun q hq => ?_⟩
    rw [State.reg_updatePc, State.stackDrop_eq] at hq
    by_cases hs : q = spReg
    · simp [writtenRegs, hs, spReg]
    · rw [State.reg_setReg_of_ne hs] at hq
      simp [writtenRegs, eq_of_reg_setReg_ne hq]
  · intro r h hx
    rw [exec_call_of_lt s h] at hx
    cases hx
    exact ⟨rfl, .inr ⟨by simp, rfl⟩, .inl (BitVec.isLt _), .inl rfl, .inl ⟨rfl, by simp⟩, .inr ⟨r, _, .inr rfl, rfl⟩,
      fun q hq => by simp [writtenRegs, eq_of_reg_setReg_ne hq, spReg]⟩
  · intro hx
    rw [exec_ret s] at hx
    cases hx
    exact ⟨rfl, .inr ⟨by simp, rfl⟩, .inl (BitVec.isLt _), .inl rfl, .inl ⟨rfl, by simp⟩, .inl rfl,
      fun q hq => by simp [writtenRegs, eq_of_reg_setReg_ne hq, spReg]⟩
  · intro r h hx
    rw [exec_jmp_of_lt s h] at hx
    cases hx
    exact ⟨rfl, .inr ⟨by simp, rfl⟩, .inl (BitVec.isLt _), .inl rfl, .inl ⟨rfl, by simp⟩, .inl rfl,
      fun q hq => absurd rfl hq⟩
  · intro r h hx
    rw [exec_jeq_of_lt s h] at hx
    cases hx
    refine ⟨rfl, .inr ⟨by simp, rfl⟩, ?_, .inl rfl, .inl ⟨rfl, by simp⟩, .inl rfl, fun q hq => absurd rfl hq⟩
    cases s.fl.e
    · exact advance_pc rfl (by simp [Instr.mnemonic]) rfl
    · exact .inl (BitVec.isLt _)
  · intro r h hx
    rw [exec_jne_of_lt s h] at hx
    cases hx
    refine ⟨rfl, .inr ⟨by simp, rfl⟩, ?_, .inl rfl, .inl ⟨rfl, by simp⟩, .inl rfl, fun q hq => absurd rfl hq⟩
    cases s.fl.e
    · exact .inl (BitVec.isLt _)
    · exact advance_pc rfl (by simp [Instr.mnemonic]) rfl
  · intro hx
    rw [exec_hlt s] at hx
    cases hx
    exact ⟨rfl, .inl ⟨rfl, rfl, rfl⟩, .inr (.inl rfl), .inl rfl, .inl ⟨rfl, by simp⟩, .inl rfl,
      fun q hq => absurd rfl hq⟩

/-- Everything an instruction can do when it answers a next state. -/
theorem exec_next_cases {i : Instr} {s t : State} (h : exec i s = .next t) :
    (∃ c, 8 ≤ c ∧ c < 256 ∧ t = s.raise ⟨.memoryOutOfBounds, c⟩) ∨ Completes i s t := by
  rcases wellFormed_or_illegal i with hw | ⟨b, hb, h8⟩
  · exact .inr (completes_of_wellFormed hw h)
  · obtain ⟨c, hc, hc', he⟩ := exec_of_illegal s (List.mem_of_find?_eq_some hb) h8
    rw [he] at h
    cases h
    exact .inl ⟨c, hc, hc', rfl⟩

end Sys2Proof.Machine
end

