-- ==== Sys2Proof/Laws/PerInstr.lean ====
section
/-! SUPPORT. Statements about instructions as syntax, one lemma per constructor. -/

namespace Sys2Proof.Laws

/-- The shape of an instruction's encoding: as many bytes as its opcode's bits 7:6 say, plus one (30_encoding.md R81),
the first of them the opcode that the catalog gives back as the same entry (R86). -/
def EncodeShape.Statement (i : Instr) : Prop :=
  (encode i).length = instrLength (opcode i.mnemonic) ∧ catalog ((encode i).headD 0x00#8) = some i.mnemonic

theorem EncodeShape.ldi (r i : Byte) : EncodeShape.Statement (.ldi r i) :=
  ⟨show 3 = instrLength (opcode .ldi) by decide, catalog_opcode .ldi⟩
theorem EncodeShape.prn (r : Byte) : EncodeShape.Statement (.prn r) :=
  ⟨show 2 = instrLength (opcode .prn) by decide, catalog_opcode .prn⟩
theorem EncodeShape.add (a b : Byte) : EncodeShape.Statement (.add a b) :=
  ⟨show 3 = instrLength (opcode .add) by decide, catalog_opcode .add⟩
theorem EncodeShape.mul (a b : Byte) : EncodeShape.Statement (.mul a b) :=
  ⟨show 3 = instrLength (opcode .mul) by decide, catalog_opcode .mul⟩
theorem EncodeShape.cmp (a b : Byte) : EncodeShape.Statement (.cmp a b) :=
  ⟨show 3 = instrLength (opcode .cmp) by decide, catalog_opcode .cmp⟩
theorem EncodeShape.push (r : Byte) : EncodeShape.Statement (.push r) :=
  ⟨show 2 = instrLength (opcode .push) by decide, catalog_opcode .push⟩
theorem EncodeShape.pop (r : Byte) : EncodeShape.Statement (.pop r) :=
  ⟨show 2 = instrLength (opcode .pop) by decide, catalog_opcode .pop⟩
theorem EncodeShape.call (r : Byte) : EncodeShape.Statement (.call r) :=
  ⟨show 2 = instrLength (opcode .call) by decide, catalog_opcode .call⟩
theorem EncodeShape.ret : EncodeShape.Statement .ret :=
  ⟨show 1 = instrLength (opcode .ret) by decide, catalog_opcode .ret⟩
theorem EncodeShape.jmp (r : Byte) : EncodeShape.Statement (.jmp r) :=
  ⟨show 2 = instrLength (opcode .jmp) by decide, catalog_opcode .jmp⟩
theorem EncodeShape.jeq (r : Byte) : EncodeShape.Statement (.jeq r) :=
  ⟨show 2 = instrLength (opcode .jeq) by decide, catalog_opcode .jeq⟩
theorem EncodeShape.jne (r : Byte) : EncodeShape.Statement (.jne r) :=
  ⟨show 2 = instrLength (opcode .jne) by decide, catalog_opcode .jne⟩
theorem EncodeShape.hlt : EncodeShape.Statement .hlt :=
  ⟨show 1 = instrLength (opcode .hlt) by decide, catalog_opcode .hlt⟩

end Sys2Proof.Laws
end

