-- ==== Sys2Proof/Laws/SubBlocks.lean ====
section
/-! SUPPORT. What the `fetch_unit` can do, against the step's own fetch: the same bytes, and a fetch fault exactly where
the fetch misses memory. -/

namespace Sys2Proof.Machine

/-- Everything the `fetch_unit` can answer: a fetch fault where the fetch misses memory; the opcode alone for bits 7:6 = 11,
which is no fault of this unit; or the bytes of the fetch, each operand on its own port and on no other. -/
theorem fetchUnit_cases (s : State) :
    (∃ a, (fetchUnit s.mem s.pc).fetchFault = some a ∧ fetch s = .error ⟨.memoryOutOfBounds, a⟩) ∨
    ∃ op oa ob, (fetchUnit s.mem s.pc).fetchFault = none ∧ (fetchUnit s.mem s.pc).opcode = some op ∧
      (fetchUnit s.mem s.pc).operandA = oa ∧ (fetchUnit s.mem s.pc).operandB = ob ∧
      (operandCount op = 3 ∧ oa = none ∧ ob = none ∧ fetch s = .error ⟨.unknownOpcode, op.toNat⟩ ∨
       operandCount op = 0 ∧ oa = none ∧ ob = none ∧ fetch s = .ok [op] ∨
       (∃ a, operandCount op = 1 ∧ oa = some a ∧ ob = none ∧ fetch s = .ok [op, a]) ∨
       ∃ a b, operandCount op = 2 ∧ oa = some a ∧ ob = some b ∧ fetch s = .ok [op, a, b]) := by
  by_cases hp : s.pc < Config.memSize
  · have hp' := Nat.not_le.2 hp
    rcases operandCount_cases (s.mem.read s.pc) with h | h | h | h
    · exact .inr (by simp [fetchUnit, fetchAddrs, fetch, readBytes, memRead_of_lt hp, h, hp])
    · by_cases h1 : s.pc + 1 < Config.memSize
      · exact .inr (by simp [fetchUnit, fetchAddrs, fetch, readBytes, memRead_of_lt hp, memRead_of_lt h1, h, hp, h1])
      · have h1 := Nat.le_of_not_lt h1
        exact .inl (by simp [fetchUnit, fetchAddrs, fetch, readBytes, memRead_of_lt hp, memRead_of_ge h1, h, hp', h1])
    · by_cases h1 : s.pc + 1 < Config.memSize
      · have h1' := Nat.not_le.2 h1
        by_cases h2 : s.pc + 2 < Config.memSize
        · exact .inr (by simp [fetchUnit, fetchAddrs, fetch, readBytes, memRead_of_lt hp, memRead_of_lt h1,
            memRead_of_lt h2, h, hp, h1, h2])
        · have h2 := Nat.le_of_not_lt h2
          exact .inl (by simp [fetchUnit, fetchAddrs, fetch, readBytes, memRead_of_lt hp, memRead_of_lt h1,
            memRead_of_ge h2, h, hp', h1', h2])
      · have h1 := Nat.le_of_not_lt h1
        exact .inl (by simp [fetchUnit, fetchAddrs, fetch, readBytes, memRead_of_lt hp, memRead_of_ge h1, h, hp', h1])
    · exact .inr (by simp [fetchUnit, fetchAddrs, fetch, memRead_of_lt hp, h, hp])
  · have hp := Nat.le_of_not_lt hp
    refine .inl ⟨s.pc, ?_, by simp [fetch, memRead_of_ge hp]⟩
    unfold fetchUnit fetchAddrs
    split <;> simp [hp]

end Sys2Proof.Machine
end

