-- ==== Sys2Proof/Machine/Assembly.lean ====
section
/-! DEFINITION. The spec's assembly syntax (30_encoding.md R92) as an assembler from text to bytes. It has no part in
the machine. What R92 does not say (spacing, the letters of a label, errors) is a DESIGN CHOICE (log entry 10). -/

namespace Sys2Proof.Machine

/-- Why a text is not assembled. -/
inductive AsmError where
  | unknownMnemonic | badOperands | badLabel | duplicateLabel | undefinedLabel | labelOutOfRange
deriving DecidableEq, Repr

/-- An immediate as written: a number or a label (30_encoding.md R92). -/
inductive AsmImmediate where
  | value (v : Byte) | label (name : List Char)
deriving DecidableEq, Repr

/-- One instruction as written: its first operand, and its second, which only LDI may write as a label. -/
structure AsmInstr where
  mnemonic : Mnemonic
  a : Byte
  b : AsmImmediate
deriving DecidableEq, Repr

/-- One line: a label, an instruction, both or neither. -/
structure AsmLine where
  label : Option (List Char)
  instr : Option AsmInstr
deriving DecidableEq, Repr

/-- The mnemonics' spellings. -/
def mnemonicName : Mnemonic → List Char
  | .ldi => ['L', 'D', 'I']
  | .prn => ['P', 'R', 'N']
  | .add => ['A', 'D', 'D']
  | .mul => ['M', 'U', 'L']
  | .cmp => ['C', 'M', 'P']
  | .push => ['P', 'U', 'S', 'H']
  | .pop => ['P', 'O', 'P']
  | .call => ['C', 'A', 'L', 'L']
  | .ret => ['R', 'E', 'T']
  | .jmp => ['J', 'M', 'P']
  | .jeq => ['J', 'E', 'Q']
  | .jne => ['J', 'N', 'E']
  | .hlt => ['H', 'L', 'T']

/-- A character that separates words inside a line. -/
def isBlank (c : Char) : Bool := c == ' ' || c == '\t' || c == '\r'

/-- A text without the blanks at its two ends. -/
def trimBlanks (t : List Char) : List Char := ((t.dropWhile isBlank).reverse.dropWhile isBlank).reverse

/-- Cut a text at every occurrence of a character. -/
def cutAt (sep : Char) : List Char → List (List Char)
  | [] => [[]]
  | c :: t =>
    if c = sep then [] :: cutAt sep t
    else
      match cutAt sep t with
      | [] => [[c]]
      | w :: ws => (c :: w) :: ws

/-- The value of one digit character, if it is below the base. -/
def digitValue (base : Nat) (c : Char) : Option Nat :=
  let n := c.toNat
  let d :=
    if 48 ≤ n ∧ n ≤ 57 then n - 48
    else if 65 ≤ n ∧ n ≤ 70 then n - 55
    else if 97 ≤ n ∧ n ≤ 102 then n - 87
    else base
  if d < base then some d else none

/-- Digits to a number, the most significant first. -/
def digitsValue (base : Nat) : Nat → List Char → Option Nat
  | acc, [] => some acc
  | acc, c :: t =>
    match digitValue base c with
    | some d => digitsValue base (acc * base + d) t
    | none => none

/-- A number of at least one digit, from 0 to 255. -/
def byteOfDigits (base : Nat) (t : List Char) : Option Byte :=
  if t = [] then none
  else
    match digitsValue base 0 t with
    | some v => if v < 256 then some (BitVec.ofNat 8 v) else none
    | none => none

/-- A number: decimal, or with `0x` or `0b` in front (30_encoding.md R92). -/
def parseNumber : List Char → Option Byte
  | '0' :: 'x' :: t => byteOfDigits 16 t
  | '0' :: 'b' :: t => byteOfDigits 2 t
  | t => byteOfDigits 10 t

/-- A register: `R0` to `R7` (30_encoding.md R92). -/
def parseRegister : List Char → Option Byte
  | ['R', d] => (digitValue 8 d).map (BitVec.ofNat 8)
  | _ => none

/-- A label's name: a letter or `_`, then letters, digits and `_`, and no register's name. -/
def isLabelName (t : List Char) : Bool :=
  match t with
  | [] => false
  | c :: w =>
    (c.isAlpha || c == '_') && w.all (fun d => d.isAlpha || d.isDigit || d == '_') && (parseRegister t).isNone

/-- An immediate: a number, or a label's name. -/
def parseImmediate (t : List Char) : Option AsmImmediate :=
  match parseNumber t with
  | some v => some (.value v)
  | none => if isLabelName t then some (.label t) else none

/-- The operands of a catalog entry, by its format, in the catalog's order (30_encoding.md R84, R92). -/
def parseOperands (m : Mnemonic) (ops : List (List Char)) : Option AsmInstr :=
  match m.format, ops with
  | .f0, [] => some ⟨m, 0x00#8, .value 0x00#8⟩
  | .f1r, [a] => (parseRegister a).map fun ra => ⟨m, ra, .value 0x00#8⟩
  | .f2ri, [a, b] =>
    match parseRegister a, parseImmediate b with
    | some ra, some i => some ⟨m, ra, i⟩
    | _, _ => none
  | .f2rr, [a, b] =>
    match parseRegister a, parseRegister b with
    | some ra, some rb => some ⟨m, ra, .value rb⟩
    | _, _ => none
  | _, _ => none

/-- A line's instruction, if it has one: the mnemonic, then its operands separated by commas. -/
def parseInstr (t : List Char) : Except AsmError (Option AsmInstr) :=
  let body := trimBlanks t
  if body = [] then .ok none
  else
    match Mnemonic.all.find? fun m => mnemonicName m == body.takeWhile fun c => !isBlank c with
    | none => .error .unknownMnemonic
    | some m =>
      let rest := trimBlanks (body.dropWhile fun c => !isBlank c)
      match parseOperands m (if rest = [] then [] else (cutAt ',' rest).map trimBlanks) with
      | some i => .ok (some i)
      | none => .error .badOperands

/-- One line: what follows `#` is a comment; what stands before `:` is a label. -/
def parseLine (t : List Char) : Except AsmError AsmLine :=
  let code := t.takeWhile fun c => c != '#'
  if code.contains ':' then
    let name := trimBlanks (code.takeWhile fun c => c != ':')
    if isLabelName name then
      (parseInstr ((code.dropWhile fun c => c != ':').drop 1)).map fun i => ⟨some name, i⟩
    else .error .badLabel
  else (parseInstr code).map fun i => ⟨none, i⟩

/-- All lines of a text. -/
def parseLines : List (List Char) → Except AsmError (List AsmLine)
  | [] => .ok []
  | t :: ts =>
    match parseLine t with
    | .error e => .error e
    | .ok l =>
      match parseLines ts with
      | .error e => .error e
      | .ok ls => .ok (l :: ls)

/-- A line's length in bytes. -/
def AsmLine.size (l : AsmLine) : Nat :=
  match l.instr with
  | some i => instrLength (opcode i.mnemonic)
  | none => 0

/-- The address each label stands for: that of the next byte (30_encoding.md R92). -/
def labelTable : Nat → List AsmLine → Except AsmError (List (List Char × Nat))
  | _, [] => .ok []
  | at0, l :: ls =>
    match labelTable (at0 + l.size) ls with
    | .error e => .error e
    | .ok table =>
      match l.label with
      | none => .ok table
      | some name => if table.any fun r => r.1 == name then .error .duplicateLabel else .ok ((name, at0) :: table)

/-- The byte an immediate stands for. -/
def resolveImmediate (table : List (List Char × Nat)) : AsmImmediate → Except AsmError Byte
  | .value v => .ok v
  | .label name =>
    match table.find? fun r => r.1 == name with
    | none => .error .undefinedLabel
    | some r => if r.2 < 256 then .ok (BitVec.ofNat 8 r.2) else .error .labelOutOfRange

/-- The bytes of all lines. -/
def emitLines (table : List (List Char × Nat)) : List AsmLine → Except AsmError (List Byte)
  | [] => .ok []
  | l :: ls =>
    match emitLines table ls with
    | .error e => .error e
    | .ok bs =>
      match l.instr with
      | none => .ok bs
      | some i =>
        match resolveImmediate table i.b with
        | .error e => .error e
        | .ok b => .ok (encode (Instr.ofFields i.mnemonic i.a b) ++ bs)

/-- Assemble parsed lines from address 0. -/
def assembleLines (ls : List AsmLine) : Except AsmError (List Byte) :=
  match labelTable 0 ls with
  | .error e => .error e
  | .ok table => emitLines table ls

/-- Assemble a text, one instruction per line (30_encoding.md R92). -/
def assemble (text : List Char) : Except AsmError (List Byte) :=
  match parseLines (cutAt '\n' text) with
  | .error e => .error e
  | .ok ls => assembleLines ls

end Sys2Proof.Machine
end

