-- ==== Sys2Proof/Tests/Slice0.lean ====
section
/-! SUPPORT. Small tests with expected results from the spec's vectors (95_test_vectors.md), and for each statement with
hypotheses a witness that they can be met together. -/

namespace Sys2Proof.Tests

open Sys2Proof.Machine

/-! ## Helpers -/

/-- The reset state with R0 to R3 set, FL given, standing at `p` with the given bytes there. -/
def machine (p : Nat) (r0 r1 r2 r3 : Byte) (fl : Flags) (bytes : List Byte) : State :=
  { ((((State.reset.setReg 0 r0).setReg 1 r1).setReg 2 r2).setReg 3 r3) with pc := p, fl := fl, mem := placeBytes [] p bytes }

/-- No flag set. -/
def noFlags : Flags := ⟨false, false, false⟩

/-- A part of the next state, if there is one. -/
def nextOf {α : Type} (o : StepOutcome) (f : State → α) : Option α :=
  match o with
  | .next t => some (f t)
  | _ => none

/-- Run state, pc and fault record after one step. -/
def faultOf (s : State) : Option (RunState × Nat × Option FaultRecord) :=
  nextOf (step s) fun t => (t.runState, t.pc, t.faultRecord)

/-! ## WellFormed: one ill-formed term for each register operand checked -/

theorem test_wf_ldi : (Instr.ldi 8 1).wellFormed = false ∧ (Instr.ldi 7 255).wellFormed = true := by decide
theorem test_wf_prn : (Instr.prn 9).wellFormed = false := by decide
theorem test_wf_add : (Instr.add 10 0).wellFormed = false ∧ (Instr.add 0 8).wellFormed = false := by decide
theorem test_wf_mul : (Instr.mul 8 0).wellFormed = false ∧ (Instr.mul 0 255).wellFormed = false := by decide
theorem test_wf_cmp : (Instr.cmp 8 0).wellFormed = false ∧ (Instr.cmp 0 8).wellFormed = false := by decide
theorem test_wf_stack : (Instr.push 8).wellFormed = false ∧ (Instr.pop 8).wellFormed = false := by decide
theorem test_wf_jumps : (Instr.call 8).wellFormed = false ∧ (Instr.jmp 8).wellFormed = false ∧
    (Instr.jeq 12).wellFormed = false ∧ (Instr.jne 8).wellFormed = false := by decide
theorem test_wf_no_operand : Instr.ret.wellFormed = true ∧ Instr.hlt.wellFormed = true := by decide

/-! ## Decoding: each constructor from a word written out by the encodings of spec/opcode_table.json -/

theorem test_decode_ldi : decodeTableWord 24 0b00001000_00000000_10000010 = some (.ldi 0 8) := by decide
theorem test_decode_prn : decodeTableWord 16 0b00000100_01000111 = some (.prn 4) := by decide
theorem test_decode_add : decodeTableWord 24 0b00000001_00000111_10100000 = some (.add 7 1) := by decide
theorem test_decode_mul : decodeTableWord 24 0b00000010_00000011_10100010 = some (.mul 3 2) := by decide
theorem test_decode_cmp : decodeTableWord 24 0b00000001_00000000_10100111 = some (.cmp 0 1) := by decide
theorem test_decode_push : decodeTableWord 16 0b00000111_01000101 = some (.push 7) := by decide
theorem test_decode_pop : decodeTableWord 16 0b00000010_01000110 = some (.pop 2) := by decide
theorem test_decode_call : decodeTableWord 16 0b00000001_01010000 = some (.call 1) := by decide
theorem test_decode_ret : decodeTableWord 8 0b00010001 = some .ret := by decide
theorem test_decode_jmp : decodeTableWord 16 0b00000011_01010100 = some (.jmp 3) := by decide
theorem test_decode_jeq : decodeTableWord 16 0b00000010_01010101 = some (.jeq 2) := by decide
theorem test_decode_jne : decodeTableWord 16 0b00000110_01010110 = some (.jne 6) := by decide
theorem test_decode_hlt : decodeTableWord 8 0b00000001 = some .hlt := by decide

/-- 30_encoding.md R88: a whole operand byte is kept, so 0x08 does not alias R0. -/
theorem test_decode_keeps_operand_byte : decodeTableWord 16 0b00001000_01000111 = some (.prn 8) := by decide

/-- 30_encoding.md R89: 0x00, a byte with bits 7:6 = 11 and 0x83 are no opcodes; a short list has a missing byte. -/
theorem test_decode_rejects :
    decode [0x00] = .error (.unknownOpcode 0x00) ∧ decode [0xC1] = .error (.unknownOpcode 0xC1) ∧
    decode [0x83, 0, 0] = .error (.unknownOpcode 0x83) ∧ decode [0x83] = .error (.endOfBytes 1) ∧
    decode [0x82, 0] = .error (.endOfBytes 2) ∧ decode [] = .error (.endOfBytes 0) := ⟨rfl, rfl, rfl, rfl, rfl, rfl⟩

/-- 30_encoding.md R86: 13 rows and no two share a byte, so 243 of the 256 opcode bytes are illegal (R89). -/
theorem test_opcodes_distinct : (Mnemonic.all.map opcode).Nodup ∧ Mnemonic.all.length = 13 := by decide

/-- 30_encoding.md R80: the bytes of an encoded instruction stand opcode first. -/
theorem test_encode : encode (.ldi 0 8) = [0x82, 0x00, 0x08] ∧ encode .hlt = [0x01] := by decide

/-! ## Instructions, one step each (95_test_vectors.md Part 2) -/

/-- V-LDI-1 and V-LDI-4. -/
theorem test_ldi : nextOf (step (machine 0 0 0 0 0 noFlags [0x82, 0x00, 0x08])) (fun t => (t.reg 0, t.pc)) = some (8, 3) ∧
    nextOf (step (machine 0 0 0 0 0 noFlags [0x82, 0x07, 0x10])) (fun t => t.sp) = some 0x10 := by decide
/-- V-PRN-2: an emission goes behind the log. -/
theorem test_prn : nextOf (step { machine 0 0 0 5 0 noFlags [0x47, 0x02] with out := [7] })
    (fun t => (t.out, t.pc)) = some ([7, 5], 2) := by decide
/-- V-ADD-1 and V-ADD-8: 200 + 100 wraps, FL stays. -/
theorem test_add : nextOf (step (machine 0 200 100 0 0 ⟨true, false, false⟩ [0xA0, 0x00, 0x01]))
    (fun t => (t.reg 0, t.reg 1, t.pc, t.fl.e)) = some (44, 100, 3, true) := by decide
/-- V-ADD-5: source and destination the same. -/
theorem test_add_same : nextOf (step (machine 0 0 0 100 0 noFlags [0xA0, 0x02, 0x02])) (fun t => t.reg 2) = some 200 := by
  decide
/-- V-MUL-3 and V-MUL-8. -/
theorem test_mul : nextOf (step (machine 0 0 0 0 255 noFlags [0xA2, 0x03, 0x03])) (fun t => t.reg 3) = some 1 ∧
    nextOf (step (machine 0 20 13 0 0 noFlags [0xA2, 0x00, 0x01])) (fun t => (t.reg 0, t.reg 1)) = some (4, 13) := by
  decide
/-- V-CMP-4 and V-CMP-7: unsigned; old bits cleared. -/
theorem test_cmp : nextOf (step (machine 0 0x80 0x7F 0 0 noFlags [0xA7, 0x00, 0x01])) (fun t => t.fl.toBits) = some 0b010 ∧
    nextOf (step (machine 0 3 3 0 0 ⟨false, false, true⟩ [0xA7, 0x00, 0x01])) (fun t => t.fl.toBits) = some 0b001 := by
  decide
/-- V-CMP-3: a < b sets L, which is bit 2. -/
theorem test_cmp_less : nextOf (step (machine 0 4 5 0 0 noFlags [0xA7, 0x00, 0x01])) (fun t => t.fl.toBits) = some 0b100 := by
  decide
/-- V-PUSH-1, and V-PUSH-2: SP 0 wraps to 255. -/
theorem test_push : nextOf (step (machine 0 0 42 0 0 noFlags [0x45, 0x01])) (fun t => (t.sp, t.mem.read 0xF3, t.pc)) =
      some (0xF3, 42, 2) ∧
    nextOf (step ((machine 0 0 9 0 0 noFlags [0x45, 0x01]).setReg 7 0)) (fun t => (t.sp, t.mem.read 255)) = some (255, 9) := by
  decide
/-- V-PUSH-3: PUSH R7 stores the new SP. -/
theorem test_push_r7 : nextOf (step (machine 0 0 0 0 0 noFlags [0x45, 0x07])) (fun t => (t.sp, t.mem.read 0xF3)) =
    some (0xF3, 0xF3) := by decide
/-- V-POP-2: SP 255 wraps to 0. -/
theorem test_pop : nextOf (step (((machine 0 0 0 0 0 noFlags [0x46, 0x00]).setReg 7 255).setMem
    (placeBytes (placeBytes [] 0 [0x46, 0x00]) 255 [7]))) (fun t => (t.reg 0, t.sp, t.mem.read 255)) = some (7, 0, 7) := by
  decide
/-- V-POP-4: POP R7 leaves the popped byte + 1. -/
theorem test_pop_r7 : nextOf (step (((machine 0 0 0 0 0 noFlags []).setReg 7 0xF3).setMem
    (placeBytes (placeBytes [] 0 [0x46, 0x07]) 0xF3 [0x30]))) (fun t => t.sp) = some 0x31 := by decide
/-- V-CALL-1, and V-CALL-2: a CALL at 254 pushes 0. -/
theorem test_call : nextOf (step (machine 10 0 40 0 0 noFlags [0x50, 0x01])) (fun t => (t.sp, t.mem.read 0xF3, t.pc)) =
      some (0xF3, 12, 40) ∧
    nextOf (step (machine 254 0 7 0 0 noFlags [0x50, 0x01])) (fun t => (t.mem.read 0xF3, t.pc)) = some (0, 7) := by decide
/-- V-CALL-3: CALL R7 jumps to the new SP. -/
theorem test_call_r7 : nextOf (step (machine 3 0 0 0 0 noFlags [0x50, 0x07])) (fun t => (t.sp, t.mem.read 0xF3, t.pc)) =
    some (0xF3, 5, 0xF3) := by decide
/-- V-RET-1. -/
theorem test_ret : nextOf (step (((machine 20 0 0 0 0 noFlags []).setReg 7 0xF3).setMem
    (placeBytes (placeBytes [] 20 [0x11]) 0xF3 [12]))) (fun t => (t.pc, t.sp)) = some (12, 0xF4) := by decide
/-- V-JMP-1. -/
theorem test_jmp : nextOf (step (machine 20 0 0 0 0x20 noFlags [0x54, 0x03])) (fun t => t.pc) = some 0x20 := by decide
/-- V-JEQ-1, V-JEQ-2, V-JEQ-4. -/
theorem test_jeq : nextOf (step (machine 20 0 0 9 0 ⟨true, false, false⟩ [0x55, 0x02])) (fun t => t.pc) = some 9 ∧
    nextOf (step (machine 20 0 0 9 0 ⟨false, true, false⟩ [0x55, 0x02])) (fun t => t.pc) = some 22 ∧
    nextOf (step (machine 20 0 0 9 0 noFlags [0x55, 0x02])) (fun t => t.pc) = some 22 := by decide
/-- V-JNE-1, V-JNE-3, V-JNE-4. -/
theorem test_jne : nextOf (step (machine 20 0 0 9 0 ⟨true, false, false⟩ [0x56, 0x02])) (fun t => t.pc) = some 22 ∧
    nextOf (step (machine 20 0 0 9 0 ⟨false, false, true⟩ [0x56, 0x02])) (fun t => t.pc) = some 9 ∧
    nextOf (step (machine 20 0 0 9 0 noFlags [0x56, 0x02])) (fun t => t.pc) = some 9 := by decide
/-- V-HLT-1 and V-HLT-2: pc held, and nothing fetched past 255. -/
theorem test_hlt : nextOf (step (machine 5 0 0 0 0 noFlags [0x01])) (fun t => (t.runState, t.pc)) = some (.halted, 5) ∧
    nextOf (step (machine 255 0 0 0 0 noFlags [0x01])) (fun t => (t.runState, t.pc)) = some (.halted, 255) := by decide

/-! ## Faults (95_test_vectors.md Part 2) -/

/-- V-LDI-5, V-ADD-10 (operand a first), V-JEQ-5 (checked though not taken). -/
theorem test_fault_register :
    faultOf (machine 0 0 0 0 0 noFlags [0x82, 0x08, 0x01]) = some (.faulted, 0, some ⟨.memoryOutOfBounds, 0, 8⟩) ∧
    faultOf (machine 0 0 0 0 0 noFlags [0xA0, 0x0A, 0x08]) = some (.faulted, 0, some ⟨.memoryOutOfBounds, 0, 10⟩) ∧
    faultOf (machine 20 0 0 0 0 noFlags [0x55, 0x0C]) = some (.faulted, 20, some ⟨.memoryOutOfBounds, 20, 12⟩) := by decide
/-- V-LDI-6, V-PRN-6, V-DEC-5: operand fetch past 255, before the catalog lookup. -/
theorem test_fault_operand_fetch :
    faultOf (machine 254 0 0 0 0 noFlags [0x82, 0x00]) = some (.faulted, 254, some ⟨.memoryOutOfBounds, 254, 256⟩) ∧
    faultOf (machine 255 0 0 0 0 noFlags [0x47]) = some (.faulted, 255, some ⟨.memoryOutOfBounds, 255, 256⟩) ∧
    faultOf (machine 255 0 0 0 0 noFlags [0x83]) = some (.faulted, 255, some ⟨.memoryOutOfBounds, 255, 256⟩) := by decide
/-- V-DEC-1, V-DEC-2 and V-DEC-4, and an opcode with bits 7:6 = 11 at 255: no operand fetch. -/
theorem test_fault_unknown_opcode :
    faultOf (machine 3 0 0 0 0 noFlags [0x00]) = some (.faulted, 3, some ⟨.unknownOpcode, 3, 0x00⟩) ∧
    faultOf (machine 0 0 0 0 0 noFlags [0xC1]) = some (.faulted, 0, some ⟨.unknownOpcode, 0, 0xC1⟩) ∧
    faultOf (machine 0 0 0 0 0 noFlags [0x83, 0, 0]) = some (.faulted, 0, some ⟨.unknownOpcode, 0, 0x83⟩) ∧
    faultOf (machine 255 0 0 0 0 noFlags [0xFF]) = some (.faulted, 255, some ⟨.unknownOpcode, 255, 0xFF⟩) := by decide
/-- V-DEC-6 and V-DEC-7: LDI at 253 advances to 256, where the fetch faults. -/
theorem test_fault_pc_256 :
    faultOf (machine 256 0 0 0 0 noFlags []) = some (.faulted, 256, some ⟨.memoryOutOfBounds, 256, 256⟩) ∧
    nextOf (step (machine 253 0 0 0 0 noFlags [0x82, 0x00, 0x05])) (fun t => (t.reg 0, t.pc)) = some (5, 256) := by decide
/-- 10_state.md R36: no step from HALTED or FAULTED. -/
theorem test_terminal :
    nextOf (step { State.reset with runState := .halted }) (fun t => t.pc) = none ∧
    nextOf (step { State.reset with runState := .faulted }) (fun t => t.pc) = none := by decide

/-! ## Host interface -/

/-- S12: a load of 257 bytes fails. A load of the program P1 puts its bytes at 0 up. -/
theorem test_load : load (List.replicate 257 0x01) State.reset = .error .programTooLarge ∧
    (load [0x82, 0x00, 0x08] State.reset).toOption.map (fun t => (t.mem.read 2, t.mem.read 3)) = some (8, 0) := by
  constructor
  · rw [load, if_pos (by rw [List.length_replicate]; decide)]
  · rfl

/-- S9, program P1: out = [8], HALTED, pc = 5, by the host's protocol. -/
theorem test_session_p1 :
    ((((Session.construct fun _ => 0).load [0x82, 0x00, 0x08, 0x47, 0x00, 0x01]).bind fun h => h.run 3).bind
      Session.read).map (fun r => (r.endedIn, r.pc, r.out)) = some (.halted, 5, [8]) := by decide

/-- 60_exceptions.md R246: the trace near the top reports absent bytes and does not fault. -/
theorem test_trace : (machine 255 0 0 0 0 ⟨false, true, false⟩ [0x01]).trace.bytes = [some 0x01, none, none] ∧
    (machine 255 0 0 0 0 ⟨false, true, false⟩ [0x01]).trace.fl = 0b010 := by decide

/-- A table word placed for the next fetch runs as the first instruction after reset. -/
theorem test_with_fetch_word : nextOf (step (State.reset.withFetchWord 8 0x82)) (fun t => (t.reg 0, t.pc)) = some (0, 3) := by
  decide

/-- 10_state.md R41, 30_encoding.md R97: for bits 7:6 = 11 the fetch unit gives the opcode, reads no operand and raises
nothing, even at the top of memory. -/
theorem test_fetch_unit_illegal_length :
    fetchUnit (placeBytes [] 255 [0xC0]) 255 = ⟨[255], some 0xC0, none, none, none⟩ := by decide

/-- 10_state.md R41, 30_encoding.md R98: a three-byte instruction at 254 gives its opcode and operand a, and misses at 256. -/
theorem test_fetch_unit_miss :
    fetchUnit (placeBytes [] 254 [0x82, 0x05]) 254 = ⟨[254, 255], some 0x82, some 0x05, none, some 256⟩ := by decide

/-- The wired sub-blocks on V-POP-4, where the second register write reads the first. -/
theorem test_block_pop_r7 : nextOf (blockStep (((machine 0 0 0 0 0 noFlags []).setReg 7 0xF3).setMem
    (placeBytes (placeBytes [] 0 [0x46, 0x07]) 0xF3 [0x30]))) (fun t => t.sp) = some 0x31 := by decide

/-! ## Assembler (30_encoding.md R92) -/

/-- The first lines of the program P9: a comment, a label as LDI's immediate, and a label before an instruction. -/
theorem test_assemble : (assemble "LDI R0,end # 6\nJNE R0\nHLT\nend: HLT".toList).toOption =
    some [0x82, 0x00, 0x06, 0x56, 0x00, 0x01, 0x01] := by decide
/-- Number forms, and a register out of range. -/
theorem test_assemble_forms : (assemble "LDI R5, 0xFF\nADD R2,R1\nLDI R3,0b101".toList).toOption =
      some [0x82, 0x05, 0xFF, 0xA0, 0x02, 0x01, 0x82, 0x03, 0x05] ∧
    (assemble "PRN R9".toList).toOption = none := by decide

/-! ## Witnesses: for each statement with hypotheses, a state and operands that meet them. Several statements share the
hypotheses "a register byte below 8": the witness takes both ends of the range. -/

/-- LdiLoadsTheImmediate, PrnEmitsTheRegister, PushStoresAtTheNewStackPointer, PopLoadsFromTheStackPointer,
CallPushesTheReturnAddress, JmpTakesTheRegister, JeqJumpsExactlyWhenEqual, JneJumpsExactlyWhenNotEqual,
RetReturnsAfterCall, PrnAfterLdiEmitsTheImmediate: R0 and R7. -/
theorem witness_register_operand : (0x00#8).toNat < 8 ∧ (0x07#8).toNat < 8 := by decide
/-- AddWritesTheSum, MulWritesTheProduct, CmpWritesOneFlag: two operands, R0 with R7 and R7 with itself. -/
theorem witness_two_register_operands : ((0x00#8).toNat < 8 ∧ (0x07#8).toNat < 8) ∧
    ((0x07#8).toNat < 8 ∧ (0x07#8).toNat < 8) := by decide
/-- PopUndoesPush: R0 and R6. -/
theorem witness_pop_undoes_push : (0x00#8).toNat < 7 ∧ (0x06#8).toNat < 7 := by decide
/-- MemReadContract, MemWriteContract: the last address and the first outside. -/
theorem witness_memory_bounds : 255 ≤ 255 ∧ 256 ≤ 256 := by decide
/-- LoadPlacesTheProgram: a full load and one byte too many. -/
theorem witness_load_lengths : (List.replicate 256 0x01#8).length ≤ 256 ∧ 256 < (List.replicate 257 0x01#8).length ∧
    0 < (List.replicate 256 0x01#8).length ∧ (List.replicate 1 0x01#8).length ≤ 255 := by
  simp only [List.length_replicate]
  decide
/-- HostProtocolHasOnlyTheSpecMoves: a fresh session, one that runs to its end, and one whose end is read. -/
theorem witness_host_protocol : (Session.construct fun _ => 0).phase = .constructed ∧
    (((Session.mk .loaded (machine 0 0 0 0 0 noFlags [0x01])).run 1).map fun h => h.phase) = some .finished ∧
    (Session.mk .finished { State.reset with runState := .halted }).read.isSome := by decide
/-- CanonicalMemoriesEqualByReads: two memories written in different orders. -/
theorem witness_canonical_memories : Memory.wf ((Memory.write [] 3 1).write 5 2) ∧
    Memory.wf ((Memory.write [] 5 2).write 3 1) ∧
    ∀ a, ((Memory.write [] 3 1).write 5 2).read a = ((Memory.write [] 5 2).write 3 1).read a :=
  ⟨by decide, by decide, fun _ => rfl⟩
/-- AluCompareSetsExactlyOneFlag: each of the three relations, at the ends of the range. -/
theorem witness_compare : (0xFF#8).toNat = (0xFF#8).toNat ∧ (0x00#8).toNat < (0xFF#8).toNat ∧
    (0x7F#8).toNat < (0x80#8).toNat := by decide
/-- AluArithmeticLaws: the ends of the range of k. -/
theorem witness_decrement : (1 ≤ 1 ∧ 1 ≤ 255) ∧ (1 ≤ 255 ∧ 255 ≤ 255) := by decide
/-- UnsupportedAluOperationNeverRaised: a state that holds such a record (no run reaches it), and an instruction that
keeps it. -/
theorem witness_unsupported_record :
    nextOf (exec .hlt { State.reset with faultRecord := some ⟨.unsupportedALUOperation, 0, 1⟩ })
      (fun t => t.faultRecord.map fun r => r.kind) = some (some .unsupportedALUOperation) := by decide
/-- IllegalRegisterOperandFaults: operand a at the boundary, operand b when a is legal, and a before b. -/
theorem witness_illegal_register :
    ((Instr.ldi 8 0).registerOperands.find? fun b => !namesRegister b) = some 8 ∧
    ((Instr.add 7 8).registerOperands.find? fun b => !namesRegister b) = some 8 ∧
    ((Instr.cmp 255 8).registerOperands.find? fun b => !namesRegister b) = some 255 := by decide
/-- OnlyEncodingsDecode: bytes that decode, with bytes left over. -/
theorem witness_decodes : decode [0x47, 0x02, 0x01] = .ok (.prn 2, [0x01]) := rfl
/-- StepRunsTheDecodedInstruction. -/
theorem witness_fetched : (machine 20 0 0 9 0 noFlags [0x55, 0x02]).runState = .running ∧
    fetch (machine 20 0 0 9 0 noFlags [0x55, 0x02]) = .ok [0x55, 0x02] ∧
    decode [0x55, 0x02] = .ok (.jeq 2, []) := ⟨rfl, rfl, rfl⟩
/-- StepRunsTheEncodedInstruction: an instruction that ends exactly at 255. -/
theorem witness_encoded_at_the_top : (machine 253 0 0 0 0 noFlags [0x82, 0x00, 0x05]).runState = .running ∧
    (machine 253 0 0 0 0 noFlags [0x82, 0x00, 0x05]).pc + (encode (.ldi 0 5)).length ≤ 256 ∧
    ∀ k (h : k < (encode (.ldi 0 5)).length),
      (machine 253 0 0 0 0 noFlags [0x82, 0x00, 0x05]).mem.read (253 + k) = (encode (.ldi 0 5))[k] := by decide
/-- FetchFaultsInTheSpecOrder: pc 256, bits 7:6 = 11 at 255, a missing operand at 255, an unknown opcode with all its
bytes, and a legal instruction that just fits: one state for each arm. -/
theorem witness_fetch_order :
    (machine 256 0 0 0 0 noFlags []).pc = 256 ∧
    ((machine 255 0 0 0 0 noFlags [0xFF]).pc ≠ 256 ∧
      operandCount ((machine 255 0 0 0 0 noFlags [0xFF]).mem.read 255) = 3) ∧
    (operandCount ((machine 255 0 0 0 0 noFlags [0x47]).mem.read 255) ≠ 3 ∧
      256 < 255 + instrLength ((machine 255 0 0 0 0 noFlags [0x47]).mem.read 255)) ∧
    (255 + instrLength ((machine 255 0 0 0 0 noFlags [0x00]).mem.read 255) ≤ 256 ∧
      catalog ((machine 255 0 0 0 0 noFlags [0x00]).mem.read 255) = none) ∧
    (254 + instrLength ((machine 254 0 0 0 0 noFlags [0x47, 0x01]).mem.read 254) ≤ 256 ∧
      catalog ((machine 254 0 0 0 0 noFlags [0x47, 0x01]).mem.read 254) = some .prn) := by decide
/-- RunningCoreAlwaysSteps, RunStateFollowsItsRule: a RUNNING, a HALTED and a FAULTED state. -/
theorem witness_run_states : State.reset.runState = .running ∧
    (State.reset.halt).runState = .halted ∧ (State.reset.raise ⟨.unknownOpcode, 0⟩).runState = .faulted := by decide
/-- FaultsArePrecise: a step that faults (the empty program P8). -/
theorem witness_faulting_step : faultOf State.reset = some (.faulted, 0, some ⟨.unknownOpcode, 0, 0⟩) := by decide
/-- FlagsWrittenOnlyByCmp: a step that changes FL, from a state with at most one flag. -/
theorem witness_flags_change : noFlags.count ≤ 1 ∧
    nextOf (step (machine 0 1 1 0 0 noFlags [0xA7, 0x00, 0x01])) (fun t => decide (t.fl ≠ noFlags)) = some true := by decide
/-- OutputLogOnlyGrowsByPrn, GreaterAndLessAreNeverRead: a step that runs PRN, and what it decodes. -/
theorem witness_output_step : nextOf (step (machine 0 0 0 5 0 noFlags [0x47, 0x02])) (fun t => t.out) = some [5] ∧
    fetchDecode (machine 0 0 0 5 0 noFlags [0x47, 0x02]) = .ok (.prn 2) := ⟨by decide, rfl⟩
/-- MemoryWrittenOnlyByPushAndCall, RegistersWrittenOnlyByTheTable: a PUSH changes the byte at 0xF3 and R7. -/
theorem witness_memory_change : nextOf (step (machine 0 0 42 0 0 noFlags [0x45, 0x01]))
    (fun t => decide (t.mem.read 0xF3 ≠ (machine 0 0 42 0 0 noFlags [0x45, 0x01]).mem.read 0xF3 ∧
      t.reg 7 ≠ (machine 0 0 42 0 0 noFlags [0x45, 0x01]).reg 7)) = some true := by decide
/-- OnlyHltHalts: a step that halts and one that does not. -/
theorem witness_halts : nextOf (step (machine 0 0 0 0 0 noFlags [0x01])) (fun t => t.runState) = some .halted ∧
    nextOf (step (machine 0 0 0 0 0 noFlags [0x54, 0x00])) (fun t => t.runState) = some .running := by decide
/-- PcReaches256OnlySequentially: a PUSH at 254 ends at 255 (V-DEC-8). -/
theorem witness_pc_256 : nextOf (step (machine 254 0 1 0 0 noFlags [0x45, 0x01])) (fun t => (t.runState, t.pc)) =
    some (.running, 256) := by decide
/-- StepKeepsTheMachineInvariant, LoadKeepsTheMachineInvariant: a state that meets the invariant, steps, and loads. -/
theorem witness_invariant : (machine 0 1 1 0 0 noFlags [0xA7, 0x00, 0x01]).Inv ∧
    (nextOf (step (machine 0 1 1 0 0 noFlags [0xA7, 0x00, 0x01])) fun t => t.pc) = some 3 ∧
    (load [0x01] (machine 0 1 1 0 0 noFlags [0xA7, 0x00, 0x01])).toOption.isSome := by
  refine ⟨⟨by decide, by decide, by decide, by decide, by decide, fun r h => by cases h⟩, by decide, by decide⟩
/-- PushedByteIsFetchedNext: SP at 3, so PUSH R1 at 0 writes the next opcode at 2, and HLT is decoded there. -/
theorem witness_pushed_byte_fetched :
    nextOf (exec (.push 1) ((machine 0 0 0x01 0 0 noFlags [0x45, 0x01]).setReg 7 3))
      (fun t => (t.pc, (stackControl .push 3).addr.toNat, (fetchDecode t).toOption)) = some (2, 2, some .hlt) := by decide
/-- RunEndDoesNotDependOnFuel: a run that ends. -/
theorem witness_run_ends : (match run 1 (machine 0 0 0 0 0 noFlags [0x01]) with
    | .ended t => some t.runState
    | .outOfFuel _ => none) = some .halted := by decide
/-- RegisterWriteStoresModulo256: a value that wraps. -/
theorem witness_register_wraps : (State.reset.setReg 0 (BitVec.ofNat 8 300)).reg 0 = 44 := by decide

end Sys2Proof.Tests
end

namespace Sys2Proof.Machine

/-! ## How a step ends -/

/-- How the step of a RUNNING core ends: the decoded instruction completes, a fault comes before the handler, or the
register check of the decoded instruction fails (60_exceptions.md R235). -/
inductive StepEnds (s : State) : State → Prop
  | completed {i : Instr} {t : State} (hd : fetchDecode s = .ok i) (hc : Completes i s t) : StepEnds s t
  | fetchFault {e : Raise} (hd : fetchDecode s = .error e) : StepEnds s (s.raise e)
  | operandFault {i : Instr} {c : Nat} (hd : fetchDecode s = .ok i) (h8 : 8 ≤ c) (hc : c < 256) :
      StepEnds s (s.raise ⟨.memoryOutOfBounds, c⟩)

/-- Everything a step can do when it answers a next state. -/
theorem step_next_cases {s t : State} (h : step s = .next t) : s.runState = .running ∧ StepEnds s t := by
  obtain ⟨hr, ⟨i, hd, hx⟩ | ⟨e, hd, rfl⟩⟩ := step_next h
  · obtain ⟨c, h8, hc, rfl⟩ | hc := exec_next_cases hx
    · exact ⟨hr, .operandFault hd h8 hc⟩
    · exact ⟨hr, .completed hd hc⟩
  · exact ⟨hr, .fetchFault hd⟩

/-- The step of a RUNNING core runs the instruction it decoded. -/
theorem step_of_fetchDecode {s : State} {i : Instr} (hr : s.runState = .running) (hd : fetchDecode s = .ok i) :
    step s = exec i s := by
  rw [step, hr]
  simp only [hd, State.orFault_ok]

/-- A step only leaves a RUNNING core. -/
theorem running_of_step_next {s t : State} (h : step s = .next t) : s.runState = .running := (step_next_cases h).1

/-- An instruction that is decoded starts inside memory. -/
theorem pc_lt_of_fetchDecode {s : State} {i : Instr} (hd : fetchDecode s = .ok i) : s.pc < Config.memSize := by
  have := (fetchDecode_ok hd).1
  rw [instrLength_eq] at this
  omega

/-! ## The machine's invariant -/

/-- A fault before the handler leaves a legal record. -/
theorem legal_of_fetchFault {s : State} {e : Raise} (hpc : s.pc ≤ Config.memSize) (hd : fetchDecode s = .error e) :
    FaultRecord.Legal ⟨e.kind, s.pc, e.context⟩ := by
  refine ⟨hpc, ?_⟩
  obtain ⟨hk, -, hctx⟩ | ⟨hk, hlt, hctx, hcat⟩ := fetchDecode_error hd
  · simp only [hk]
    exact .inl (hctx hpc)
  · simp only [hk, hctx]
    exact ⟨toNat_lt_memSize _, hlt, by simpa using hcat⟩

/-- A failed register check leaves a legal record. -/
theorem legal_of_operandFault {s : State} {i : Instr} {c : Nat} (hd : fetchDecode s = .ok i) (h8 : 8 ≤ c)
    (hc : c < 256) : FaultRecord.Legal ⟨.memoryOutOfBounds, s.pc, c⟩ :=
  have hlt := pc_lt_of_fetchDecode hd
  ⟨hlt.le, .inr ⟨h8, hc, hlt⟩⟩

/-- Taking a fault with a legal record keeps the invariant. -/
theorem State.Inv.raise {s : State} (hs : s.Inv) {r : Raise} (hr : FaultRecord.Legal ⟨r.kind, s.pc, r.context⟩) :
    (s.raise r).Inv where
  mem_wf := hs.mem_wf
  pc_le := hs.pc_le
  halted_pc := by simp
  one_flag := hs.one_flag
  record_iff := by simp
  record_legal := by
    rintro _ ⟨⟩
    exact ⟨hr, rfl⟩

/-- A RUNNING core that meets the invariant has no fault record. -/
theorem State.Inv.faultRecord_eq_none {s : State} (hs : s.Inv) (hr : s.runState = .running) : s.faultRecord = none := by
  simpa [hr] using hs.record_iff

namespace Completes

variable {i : Instr} {s t : State}

/-- A completed instruction keeps memory canonical: it writes one byte at most, at an address that is a byte. -/
theorem mem_wf (hc : Completes i s t) (hm : Memory.wf s.mem) : Memory.wf t.mem := by
  obtain h | ⟨r, v, -, h⟩ := hc.mem
  · rwa [h]
  · rw [h]
    exact Memory.wf_write hm (toNat_lt_memSize _) v

/-- Every instruction but HLT keeps the run state. -/
theorem runState_eq (hc : Completes i s t) (hi : i ≠ .hlt) : t.runState = s.runState := by
  obtain ⟨h, -⟩ | ⟨-, h⟩ := hc.runState
  · exact absurd h hi
  · exact h

/-- A completed HLT halts. -/
theorem runState_of_hlt (hc : Completes .hlt s t) : t.runState = .halted := by
  obtain ⟨-, h, -⟩ | ⟨h, -⟩ := hc.runState
  · exact h
  · exact absurd rfl h

/-- HLT holds the pc. -/
theorem pc_of_hlt (hc : Completes .hlt s t) : t.pc = s.pc := by
  obtain ⟨-, -, h⟩ | ⟨h, -⟩ := hc.runState
  · exact h
  · exact absurd rfl h

/-- A completed instruction leaves the pc in [0, 256]: at worst it advances past the instruction's last byte. -/
theorem pc_le (hc : Completes i s t) (hd : fetchDecode s = .ok i) : t.pc ≤ Config.memSize := by
  obtain h | rfl | ⟨h, -⟩ := hc.pc
  · exact h.le
  · exact hc.pc_of_hlt ▸ (pc_lt_of_fetchDecode hd).le
  · exact h ▸ (fetchDecode_ok hd).1

/-- Only HLT halts a RUNNING core. -/
theorem eq_hlt (hc : Completes i s t) (hr : s.runState = .running) (ht : t.runState = .halted) : i = .hlt := by
  by_contra hi
  rw [hc.runState_eq hi, hr] at ht
  cases ht

/-- A completed instruction faults no RUNNING core. -/
theorem runState_ne_faulted (hc : Completes i s t) (hr : s.runState = .running) : t.runState ≠ .faulted := by
  obtain ⟨-, h, -⟩ | ⟨-, h⟩ := hc.runState <;> simp [h, hr]

/-- A completed instruction keeps the flags mutually exclusive. -/
theorem fl_count_le (hc : Completes i s t) (hf : s.fl.count ≤ 1) : t.fl.count ≤ 1 := by
  obtain h | ⟨a, b, -, h⟩ := hc.fl
  · rwa [h]
  · exact h.le

/-- A completed instruction keeps the invariant. -/
theorem inv (hc : Completes i s t) (hd : fetchDecode s = .ok i) (hr : s.runState = .running) (hs : s.Inv) : t.Inv :=
  have hnone : t.faultRecord = none := hc.faultRecord.trans (hs.faultRecord_eq_none hr)
  { mem_wf := hc.mem_wf hs.mem_wf
    pc_le := hc.pc_le hd
    halted_pc := fun ht => by
      obtain rfl := hc.eq_hlt hr ht
      exact hc.pc_of_hlt ▸ pc_lt_of_fetchDecode hd
    one_flag := hc.fl_count_le hs.one_flag
    record_iff := by simp [hnone, hc.runState_ne_faulted hr]
    record_legal := by simp [hnone] }

end Completes

/-- Settles O43: a step completes its instruction or takes a fault with a legal record, and each keeps the invariant. -/
theorem stepKeepsTheMachineInvariant : Obligations.StepKeepsTheMachineInvariant := by
  intro s t hs h
  obtain ⟨hr, hend⟩ := step_next_cases h
  cases hend with
  | completed hd hc => exact hc.inv hd hr hs
  | fetchFault hd => exact hs.raise (legal_of_fetchFault hs.pc_le hd)
  | operandFault hd h8 hc => exact hs.raise (legal_of_operandFault hd h8 hc)

/-! ## What only some instructions write -/

/-- Settles O36: of the instructions that complete, only CMP writes `FL`, and a fault keeps it. -/
theorem flagsWrittenOnlyByCmp : Obligations.FlagsWrittenOnlyByCmp := by
  intro s t h
  obtain ⟨hr, hend⟩ := step_next_cases h
  cases hend with
  | completed hd hc =>
    refine ⟨fun hne => ?_, hc.fl_count_le⟩
    obtain hfl | ⟨a, b, rfl, hcount⟩ := hc.fl
    · exact absurd hfl hne
    · exact ⟨⟨a, b, hd⟩, hcount, (hc.runState_eq (by simp)).trans hr⟩
  | fetchFault | operandFault => exact ⟨fun hne => absurd rfl hne, id⟩

/-- Settles O39: a completed instruction writes only the registers of the table, and a fault writes none. -/
theorem registersWrittenOnlyByTheTable : Obligations.RegistersWrittenOnlyByTheTable := by
  intro s t q h hq
  cases (step_next_cases h).2 with
  | completed hd hc => exact ⟨_, hd, hc.regs q hq⟩
  | fetchFault | operandFault => exact absurd rfl hq

/-- Settles O42: a byte's value is below 256, HLT leaves RUNNING, and so does a fault;
the sequential advance is left. -/
theorem pcReaches256OnlySequentially : Obligations.PcReaches256OnlySequentially := by
  intro s t h hrun hpc
  cases (step_next_cases h).2 with
  | @completed i _ hd hc =>
    obtain hlt | rfl | ⟨hadv, hseq⟩ := hc.pc
    · omega
    · rw [hc.runState_of_hlt] at hrun
      cases hrun
    · exact ⟨i, hd, hadv.symm.trans hpc, hseq⟩
  | fetchFault | operandFault => cases hrun

/-! ## Reset and register writes -/

/-- Settles O1: each field is read off `State.resetWith`, register by register. -/
theorem resetStateForEveryRInit : Obligations.ResetStateForEveryRInit := by
  refine fun rInit => ⟨fun i => ?_, rfl, rfl, rfl, rfl, rfl, rfl, fun _ => rfl⟩
  fin_cases i <;> rfl

/-- Settles O4, by the read-after-write rules of `State.setReg`. -/
theorem registerWriteStoresModulo256 : Obligations.RegisterWriteStoresModulo256 := by
  refine fun s q v => ⟨?_, fun p hp => ?_⟩
  · rw [State.reg_setReg_self, BitVec.toNat_ofNat]
  · exact State.reg_setReg_of_ne (by simpa using hp)

end Sys2Proof.Machine

namespace Sys2Proof.Machine

/-! ## What no instruction reads -/

/-- Two states with the same fields are the same. -/
@[ext] theorem State.ext {s t : State} (regs : s.regs = t.regs) (pc : s.pc = t.pc) (fl : s.fl = t.fl)
    (runState : s.runState = t.runState) (faultRecord : s.faultRecord = t.faultRecord) (out : s.out = t.out)
    (mem : s.mem = t.mem) : s = t := by
  cases s
  cases t
  simp_all

/-- The two states hold the same registers, pc, Equal flag and memory: everything that an instruction reads. -/
structure Agree (s u : State) : Prop where
  regs : u.regs = s.regs
  pc : u.pc = s.pc
  equal : u.fl.e = s.fl.e
  mem : u.mem = s.mem

/-- `s` going to `t` and `u` going to `v` have the same effect: the ends agree on all that is read, and each of the other
fields is kept in both or written with the same value in both (the log: appended to). -/
structure SameEffect (s t u v : State) : Prop where
  agree : Agree t v
  fl : (t.fl = s.fl ∧ v.fl = u.fl) ∨ v.fl = t.fl
  runState : (t.runState = s.runState ∧ v.runState = u.runState) ∨ v.runState = t.runState
  faultRecord : (t.faultRecord = s.faultRecord ∧ v.faultRecord = u.faultRecord) ∨ v.faultRecord = t.faultRecord
  out : ∃ e, t.out = s.out ++ e ∧ v.out = u.out ++ e

/-- Whatever next state `x` answers from `s`, `y` answers one from `u` by the same effect. -/
def SameOutcome (s u : State) (x y : StepOutcome) : Prop :=
  ∀ t, x = .next t → ∃ v, y = .next v ∧ SameEffect s t u v

section

variable {s t u v : State}

theorem Agree.reg (h : Agree s u) (q : RegIndex) : u.reg q = s.reg q := by simp only [State.reg, h.regs]

theorem Agree.sp (h : Agree s u) : u.sp = s.sp := h.reg spReg

theorem Agree.fetchDecode (h : Agree s u) : fetchDecode u = fetchDecode s := by
  simp only [Machine.fetchDecode, fetch, h.mem, h.pc]

namespace SameEffect

/-- Doing nothing has the same effect in states that agree. -/
theorem refl (h : Agree s u) : SameEffect s s u u :=
  ⟨h, .inl ⟨rfl, rfl⟩, .inl ⟨rfl, rfl⟩, .inl ⟨rfl, rfl⟩, [], by simp, by simp⟩

theorem setReg (h : SameEffect s t u v) (q : RegIndex) (b : Byte) :
    SameEffect s (t.setReg q b) u (v.setReg q b) :=
  { h with agree := { h.agree with regs := congrArg (·.set q b) h.agree.regs } }

theorem setMem (h : SameEffect s t u v) (m : Memory) : SameEffect s (t.setMem m) u (v.setMem m) :=
  { h with agree := { h.agree with mem := rfl } }

theorem updatePc (h : SameEffect s t u v) (sel : PcSel) : SameEffect s (t.updatePc sel) u (v.updatePc sel) :=
  { h with agree := { h.agree with pc := congrArg (nextPc sel) h.agree.pc } }

theorem setFlags (h : SameEffect s t u v) (f : Flags) : SameEffect s (t.setFlags f) u (v.setFlags f) :=
  { h with agree := { h.agree with equal := rfl }, fl := .inr rfl }

theorem emit (h : SameEffect s t u v) (b : Byte) : SameEffect s (t.emit b) u (v.emit b) :=
  have ⟨e, ht, hv⟩ := h.out
  { h with agree := { h.agree with }, out := ⟨e ++ [b], by simp [ht], by simp [hv]⟩ }

theorem halt (h : SameEffect s t u v) : SameEffect s t.halt u v.halt :=
  { h with agree := { h.agree with }, runState := .inr rfl }

theorem raise (h : SameEffect s t u v) (r : Raise) : SameEffect s (t.raise r) u (v.raise r) :=
  { h with
    agree := { h.agree with }
    runState := .inr rfl
    faultRecord := .inr (by simp [h.agree.pc]) }

theorem stackDrop (h : SameEffect s t u v) : SameEffect s t.stackDrop u v.stackDrop := by
  simp only [State.stackDrop_eq, h.agree.sp]
  exact h.setReg _ _

theorem writeAlu (h : SameEffect s t u v) (q : RegIndex) (o : AluOut) :
    SameEffect s (t.writeAlu q o) u (v.writeAlu q o) := by
  obtain ⟨result, flags⟩ := o
  cases result with
  | none =>
    cases flags with
    | none => exact h
    | some f => exact h.setFlags f
  | some b =>
    cases flags with
    | none => exact h.setReg q b
    | some f => exact (h.setReg q b).setFlags f

end SameEffect

namespace SameOutcome

theorem next (h : SameEffect s t u v) : SameOutcome s u (.next t) (.next v) := by
  rintro _ ⟨⟩
  exact ⟨v, rfl, h⟩

/-- Taking the same fault or going on alike. -/
theorem orFault {α : Type} {x : Except Raise α} {k k' : α → StepOutcome} (h : Agree s u)
    (hk : ∀ a, SameOutcome s u (k a) (k' a)) : SameOutcome s u (s.orFault x k) (u.orFault x k') := by
  cases x with
  | ok a => exact hk a
  | error r => exact next ((SameEffect.refl h).raise r)

theorem aluInstr (h : Agree s u) (op : AluOp) (m : Mnemonic) (a b : Byte) :
    SameOutcome s u (aluInstr op m a b s) (aluInstr op m a b u) := by
  simp only [Machine.aluInstr, h.reg]
  exact orFault h fun qa => orFault h fun _ => orFault h fun o =>
    next (((SameEffect.refl h).writeAlu qa o).updatePc _)

theorem jumpIf (h : Agree s u) (taken : Bool) (m : Mnemonic) (r : Byte) :
    SameOutcome s u (jumpIf taken m r s) (jumpIf taken m r u) := by
  simp only [Machine.jumpIf, h.reg]
  exact orFault h fun _ => next ((SameEffect.refl h).updatePc _)

end SameOutcome

theorem Agree.setReg (h : Agree s u) (q : RegIndex) (b : Byte) : Agree (s.setReg q b) (u.setReg q b) :=
  ((SameEffect.refl h).setReg q b).agree

/-- An instruction has the same effect in states that agree on what is read. -/
theorem sameOutcome_exec (h : Agree s u) (i : Instr) : SameOutcome s u (exec i s) (exec i u) := by
  have h0 := SameEffect.refl h
  cases i with
  | ldi r b => exact .orFault h fun q => .next ((h0.setReg q _).updatePc _)
  | prn r =>
    simp only [exec, execPrn, h.reg]
    exact .orFault h fun _ => .next ((h0.emit _).updatePc _)
  | add a b => exact .aluInstr h .add .add a b
  | mul a b => exact .aluInstr h .mul .mul a b
  | cmp a b => exact .aluInstr h .cmp .cmp a b
  | push r =>
    simp only [exec, execPush, State.pushByte_eq, State.orFault_ok, h.sp, h.mem, (h.setReg _ _).reg]
    exact .orFault h fun _ => .next (((h0.setReg _ _).setMem _).updatePc _)
  | pop r =>
    simp only [exec, execPop, State.stackTop_eq, State.orFault_ok, h.sp, h.mem]
    exact .orFault h fun q => .next ((h0.setReg q _).stackDrop.updatePc _)
  | call r =>
    simp only [exec, execCall, State.pushByte_eq, State.orFault_ok, State.reg_setMem, h.sp, h.mem, h.pc,
      (h.setReg _ _).reg]
    exact .orFault h fun _ => .next (((h0.setReg _ _).setMem _).updatePc _)
  | ret =>
    simp only [exec, execRet, State.stackTop_eq, State.orFault_ok, h.sp, h.mem]
    exact .next (h0.stackDrop.updatePc _)
  | jmp r => exact .jumpIf h true .jmp r
  | jeq r =>
    simp only [exec, execJeq, h.equal]
    exact .jumpIf h _ .jeq r
  | jne r =>
    simp only [exec, execJne, h.equal]
    exact .jumpIf h _ .jne r
  | hlt => exact .next (h0.halt.updatePc .hold)

/-- A step has the same effect in states that agree on what is read and have the same run state. -/
theorem sameOutcome_step (h : Agree s u) (hr : u.runState = s.runState) : SameOutcome s u (step s) (step u) := by
  simp only [step, hr, h.fetchDecode]
  cases s.runState with
  | running => exact .orFault h (sameOutcome_exec h)
  | halted | faulted => rintro t ⟨⟩

namespace SameEffect

/-- Where the starts have the same flags, so have the ends. -/
theorem fl_eq (h : SameEffect s t u v) (hs : u.fl = s.fl) : v.fl = t.fl := by
  obtain ⟨ht, hv⟩ | hv := h.fl
  · rw [hv, hs, ht]
  · exact hv

/-- Where the starts have the same run state, so have the ends. -/
theorem runState_eq (h : SameEffect s t u v) (hs : u.runState = s.runState) : v.runState = t.runState := by
  obtain ⟨ht, hv⟩ | hv := h.runState
  · rw [hv, hs, ht]
  · exact hv

/-- Where the starts have the same fault record, so have the ends. -/
theorem faultRecord_eq (h : SameEffect s t u v) (hs : u.faultRecord = s.faultRecord) :
    v.faultRecord = t.faultRecord := by
  obtain ⟨ht, hv⟩ | hv := h.faultRecord
  · rw [hv, hs, ht]
  · exact hv

/-- What was appended to one log was appended to the other. -/
theorem out_eq_append (h : SameEffect s t u v) {e : List Byte} (ht : t.out = s.out ++ e) : v.out = u.out ++ e := by
  obtain ⟨e', ht', hv⟩ := h.out
  rwa [List.append_cancel_left (ht.symm.trans ht')]

/-- Where the starts have the same log, so have the ends. -/
theorem out_eq (h : SameEffect s t u v) (hs : u.out = s.out) : v.out = t.out := by
  obtain ⟨e, ht, hv⟩ := h.out
  rw [hv, hs, ht]

end SameEffect

end

/-- Settles O34: its last clause is that an instruction has the same effect whatever the run state. -/
theorem runStateFollowsItsRule : Obligations.RunStateFollowsItsRule := by
  refine ⟨fun _ => rfl, fun _ _ => rfl, fun s => ⟨_, exec_hlt s, rfl⟩, fun _ _ => rfl, fun s t hs h => ?_,
    fun i s t rs h => ?_⟩
  · rw [running_of_step_next h] at hs
    obtain hs | hs := hs <;> cases hs
  · obtain ⟨t', hx, he⟩ := sameOutcome_exec (s := s) (u := { s with runState := rs }) ⟨rfl, rfl, rfl, rfl⟩ i t h
    exact ⟨t', hx, he.agree.regs, he.agree.pc, he.fl_eq rfl, he.out_eq rfl, he.agree.mem, he.faultRecord_eq rfl⟩

/-- Settles O40: G and L are not among what a step reads. -/
theorem greaterAndLessAreNeverRead : Obligations.GreaterAndLessAreNeverRead := by
  intro s t g l h
  obtain ⟨t', hx, he⟩ :=
    sameOutcome_step (s := s) (u := { s with fl := { s.fl with g := g, l := l } }) ⟨rfl, rfl, rfl, rfl⟩ rfl t h
  exact ⟨t', hx, he.agree.regs, he.agree.pc, he.agree.equal, he.runState_eq rfl, he.faultRecord_eq rfl, he.out_eq rfl,
    he.agree.mem⟩

/-- What a step appends to the output log: nothing, or the byte of the register that a PRN names. -/
theorem out_of_step_next {s t : State} (h : step s = .next t) :
    ∃ e, t.out = s.out ++ e ∧
      (e = [] ∨ ∃ (r : Byte) (h : r.toNat < 8), fetchDecode s = .ok (.prn r) ∧ e = [s.reg ⟨r.toNat, h⟩]) := by
  cases (step_next_cases h).2 with
  | completed hd hc =>
    obtain ⟨hout, -⟩ | ⟨r, h8, rfl, hout⟩ := hc.out
    · exact ⟨[], by simp [hout], .inl rfl⟩
    · exact ⟨_, hout, .inr ⟨r, h8, hd, rfl⟩⟩
  | fetchFault | operandFault => exact ⟨[], by simp, .inl rfl⟩

/-- A PRN of a legal register appends that register's byte. -/
theorem out_of_step_prn {s t : State} {r : Byte} (h : step s = .next t) (h8 : r.toNat < 8)
    (hd : fetchDecode s = .ok (.prn r)) : t.out = s.out ++ [s.reg ⟨r.toNat, h8⟩] := by
  rw [step_of_fetchDecode (running_of_step_next h) hd, exec_prn_of_lt s h8] at h
  cases h
  rfl

/-- With any other log, a step does the same and appends the same. -/
theorem step_of_other_out {s t : State} {e : List Byte} (h : step s = .next t) (he : t.out = s.out ++ e)
    (o : List Byte) : step { s with out := o } = .next { t with out := o ++ e } := by
  obtain ⟨v, hx, hv⟩ := sameOutcome_step (s := s) (u := { s with out := o }) ⟨rfl, rfl, rfl, rfl⟩ rfl t h
  rw [hx]
  exact congrArg _ (State.ext hv.agree.regs hv.agree.pc (hv.fl_eq rfl) (hv.runState_eq rfl) (hv.faultRecord_eq rfl)
    (hv.out_eq_append he) hv.agree.mem)

/-- Settles O37: what a step appends, and that the log is not among what it reads. -/
theorem outputLogOnlyGrowsByPrn : Obligations.OutputLogOnlyGrowsByPrn := by
  refine ⟨fun _ => rfl, fun s t h => ?_⟩
  obtain ⟨e, he, hcases⟩ := out_of_step_next h
  refine ⟨e, he, hcases, fun r h8 hd hnil => ?_, step_of_other_out h he⟩
  have hprn := out_of_step_prn h h8 hd
  simp [he, hnil] at hprn

end Sys2Proof.Machine

namespace Sys2Proof.Machine

/-! ## The wired sub-blocks -/

section

variable {s : State} {a b : Byte}

/-! The register check by format is the checks of the handlers, in their order. -/

theorem orFault_checkRegisters_f1r (k : RegIndex × RegIndex → StepOutcome) :
    s.orFault (checkRegisters .f1r a b) k = s.orFault (regOperand a) fun qa => k (qa, 0) := by
  rw [checkRegisters]
  cases regOperand a <;> rfl

theorem orFault_checkRegisters_f2ri (k : RegIndex × RegIndex → StepOutcome) :
    s.orFault (checkRegisters .f2ri a b) k = s.orFault (regOperand a) fun qa => k (qa, 0) :=
  orFault_checkRegisters_f1r (b := b) k

theorem orFault_checkRegisters_f2rr (k : RegIndex × RegIndex → StepOutcome) :
    s.orFault (checkRegisters .f2rr a b) k =
      s.orFault (regOperand a) fun qa => s.orFault (regOperand b) fun qb => k (qa, qb) := by
  rw [checkRegisters]
  cases regOperand a with
  | error e => rfl
  | ok qa => cases regOperand b <;> rfl

/-! What each shape of write enables commits, in terms of the named updates. -/

namespace Controls

theorem commit_only (sel : PcSel) : (only sel).commit s = s.updatePc sel := by
  ext1 <;> simp [commit, only]

theorem commit_regWrite (sel : PcSel) (q : RegIndex) (v : Byte) :
    { only sel with regWrites := [(q, v)] }.commit s = (s.setReg q v).updatePc sel := by
  ext1 <;> simp [commit, only]

theorem commit_regWrites (sel : PcSel) (q p : RegIndex) (v w : Byte) :
    { only sel with regWrites := [(q, v), (p, w)] }.commit s = ((s.setReg q v).setReg p w).updatePc sel := by
  ext1 <;> simp [commit, only]

theorem commit_regWrite_memWrite (sel : PcSel) (q : RegIndex) (v addr x : Byte) :
    { only sel with regWrites := [(q, v)], memWrite := some (addr, x) }.commit s =
      ((s.setReg q v).setMem (s.mem.write addr.toNat x)).updatePc sel := by
  ext1 <;> simp [commit, only]

theorem commit_emit (sel : PcSel) (v : Byte) :
    { only sel with emit := some v }.commit s = (s.emit v).updatePc sel := by
  ext1 <;> simp [commit, only]

theorem commit_halt (sel : PcSel) : { only sel with halt := true }.commit s = s.halt.updatePc sel := by
  ext1 <;> simp [commit, only]

theorem commit_result (sel : PcSel) (q : RegIndex) (v : Byte) :
    (ofAlu sel q (.ok ⟨some v, none⟩)).commit s = (s.setReg q v).updatePc sel :=
  commit_regWrite sel q v

theorem commit_flags (sel : PcSel) (q : RegIndex) (f : Flags) :
    (ofAlu sel q (.ok ⟨none, some f⟩)).commit s = (s.setFlags f).updatePc sel := by
  ext1 <;> simp [commit, ofAlu, only]

end Controls

theorem alu_add (x y : Byte) : alu .add x y = .ok ⟨some (aluAdd x y), none⟩ := rfl
theorem alu_mul (x y : Byte) : alu .mul x y = .ok ⟨some (aluMultiply x y), none⟩ := rfl
theorem alu_cmp (x y : Byte) : alu .cmp x y = .ok ⟨none, some (compareFlags x y)⟩ := rfl

/-- The multiplexer's row of each catalog entry, after the register check, is the entry's handler (30_encoding.md R102). -/
theorem controls_commit_eq_exec (m : Mnemonic) (a b : Byte) (s : State) :
    (s.orFault (checkRegisters m.format a b) fun q => .next ((controls m q.1 q.2 b s).commit s)) =
      exec (Instr.ofFields m a b) s := by
  cases m <;> simp only [Mnemonic.format, Instr.ofFields, exec]
  case ldi =>
    simp only [orFault_checkRegisters_f2ri, controls, Controls.commit_regWrite, execLdi, immediate_eq]
  case prn => simp only [orFault_checkRegisters_f1r, controls, Controls.commit_emit, execPrn]
  case add =>
    simp only [orFault_checkRegisters_f2rr, controls, alu_add, Controls.commit_result, execAdd, aluInstr, aluRequest_add,
      State.orFault_ok, State.writeAlu_result]
  case mul =>
    simp only [orFault_checkRegisters_f2rr, controls, alu_mul, Controls.commit_result, execMul, aluInstr, aluRequest_mul,
      State.orFault_ok, State.writeAlu_result]
  case cmp =>
    simp only [orFault_checkRegisters_f2rr, controls, alu_cmp, Controls.commit_flags, execCmp, aluInstr, aluRequest_cmp,
      State.orFault_ok, State.writeAlu_flags]
  case push =>
    simp only [orFault_checkRegisters_f1r, controls, Controls.commit_regWrite_memWrite, execPush, State.pushByte_eq,
      State.orFault_ok, State.reg_setReg, stackControl_push_addr, stackControl_push_spNext, BitVec.ofNat_toNat,
      BitVec.setWidth_eq]
  case pop =>
    simp only [orFault_checkRegisters_f1r, controls, Controls.commit_regWrites, execPop, State.stackTop_eq,
      State.orFault_ok, State.stackDrop_eq, State.sp_eq, State.reg_setReg, stackControl_pop_addr, stackControl_pop_spNext,
      eq_comm (a := spReg)]
  case call =>
    simp only [orFault_checkRegisters_f1r, controls, Controls.commit_regWrite_memWrite, execCall, State.pushByte_eq,
      State.orFault_ok, State.reg_setMem, State.reg_setReg, stackControl_push_addr, stackControl_push_spNext]
  case ret =>
    simp only [checkRegisters, controls, Controls.commit_regWrite, execRet, State.stackTop_eq, State.orFault_ok,
      State.stackDrop_eq, stackControl_pop_addr, stackControl_pop_spNext]
  case jmp => simp only [orFault_checkRegisters_f1r, controls, Controls.commit_only, execJmp, jumpIf, if_true]
  case jeq => simp only [orFault_checkRegisters_f1r, controls, Controls.commit_only, execJeq, jumpIf]
  case jne =>
    simp only [orFault_checkRegisters_f1r, controls, Controls.commit_only, execJne, jumpIf]
    cases s.fl.e <;> rfl
  case hlt => simp only [checkRegisters, controls, Controls.commit_halt, execHlt, State.orFault_ok]

/-- What the bytes of a fetch decode to: the catalog entry of the opcode, with the operand bytes there are. -/
theorem fetchDecode_of_fetch {op : Byte} {bs : List Byte} (hf : fetch s = .ok (op :: bs))
    (hn : operandCount op = bs.length) (h3 : operandCount op ≠ 3) :
    fetchDecode s = (catalog op).elim (.error ⟨.unknownOpcode, op.toNat⟩) fun m =>
      .ok (Instr.ofFields m (bs.getD 0 0x00#8) (bs.getD 1 0x00#8)) := by
  simp only [fetchDecode, hf, decode, if_neg h3, if_neg hn.not_gt]
  cases catalog op <;> rfl

/-- Where the `fetch_unit` faults, the step of the sub-blocks is the step's own. -/
theorem blockStep_eq_step_of_fetchFault {addr : Nat} (hr : s.runState = .running)
    (hfault : (fetchUnit s.mem s.pc).fetchFault = some addr) (hf : fetch s = .error ⟨.memoryOutOfBounds, addr⟩) :
    blockStep s = step s := by
  simp only [blockStep, step, hr, hfault, fetchDecode, hf, State.orFault_error]

/-- So it is for bits 7:6 = 11. -/
theorem blockStep_eq_step_of_operandCount_eq_three {op : Byte} (hr : s.runState = .running)
    (hfault : (fetchUnit s.mem s.pc).fetchFault = none) (hop : (fetchUnit s.mem s.pc).opcode = some op)
    (h3 : operandCount op = 3) (hf : fetch s = .error ⟨.unknownOpcode, op.toNat⟩) : blockStep s = step s := by
  simp only [blockStep, step, hr, hfault, hop, Option.getD_some, decoderDispatcher, h3, if_true, fetchDecode, hf,
    State.orFault_error]

/-- So it is where the fetch answers the bytes on the `fetch_unit`'s ports. -/
theorem blockStep_eq_step_of_fetch {op : Byte} {bs : List Byte} (hr : s.runState = .running)
    (hfault : (fetchUnit s.mem s.pc).fetchFault = none) (hop : (fetchUnit s.mem s.pc).opcode = some op)
    (ha : (fetchUnit s.mem s.pc).operandA = bs[0]?) (hb : (fetchUnit s.mem s.pc).operandB = bs[1]?)
    (hf : fetch s = .ok (op :: bs)) (hn : operandCount op = bs.length) (h3 : operandCount op ≠ 3) :
    blockStep s = step s := by
  simp only [blockStep, step, hr, hfault, hop, ha, hb, Option.getD_some, decoderDispatcher, if_neg h3,
    fetchDecode_of_fetch hf hn h3, List.getD_eq_getElem?_getD]
  cases catalog op with
  | none => rfl
  | some m => exact controls_commit_eq_exec m _ _ s

end

/-- Settles O46: whatever the `fetch_unit` answers, the sub-blocks take the fault or run the handler that `step` does. -/
theorem subBlocksRefineTheStep : Obligations.SubBlocksRefineTheStep := by
  intro s
  cases hr : s.runState with
  | halted | faulted => simp only [blockStep, step, hr]
  | running =>
    obtain ⟨addr, hfault, hf⟩ | ⟨op, oa, ob, hfault, hop, ha, hb, hcases⟩ := fetchUnit_cases s
    · exact blockStep_eq_step_of_fetchFault hr hfault hf
    · obtain ⟨h3, -, -, hf⟩ | ⟨hn, rfl, rfl, hf⟩ | ⟨a, hn, rfl, rfl, hf⟩ | ⟨a, b, hn, rfl, rfl, hf⟩ := hcases
      · exact blockStep_eq_step_of_operandCount_eq_three hr hfault hop h3 hf
      · exact blockStep_eq_step_of_fetch hr hfault hop ha hb hf hn (by omega)
      · exact blockStep_eq_step_of_fetch hr hfault hop ha hb hf hn (by omega)
      · exact blockStep_eq_step_of_fetch hr hfault hop ha hb hf hn (by omega)

end Sys2Proof.Machine

namespace Sys2Proof.Machine

/-! ## Memory -/

/-- A load that fits places the bytes from address 0 up. -/
theorem load_of_length_le {bytes : List Byte} (h : bytes.length ≤ Config.memSize) (s : State) :
    load bytes s = .ok (s.setMem (placeBytes s.mem 0 bytes)) :=
  if_neg (Nat.not_lt.2 h)

/-- A load that does not fit fails. -/
theorem load_of_length_gt {bytes : List Byte} (h : Config.memSize < bytes.length) (s : State) :
    load bytes s = .error .programTooLarge :=
  if_pos h

/-- Memory resets to zero. -/
theorem read_resetWith (rInit : Fin 7 → Byte) (a : Nat) : (State.resetWith rInit).mem.read a = 0x00#8 := rfl

/-- Settles O2: placing bytes from address 0 up puts byte `k` at `k` and keeps the zeros of reset above. -/
theorem loadPlacesTheProgram : Obligations.LoadPlacesTheProgram := by
  refine ⟨read_resetWith, fun rInit bytes => ⟨fun h => ?_, fun h => load_of_length_gt h _⟩⟩
  have ⟨hin, hout⟩ := read_placeBytes (m := (State.resetWith rInit).mem) (a := 0) bytes ((Nat.zero_add _).trans_le h)
  simp only [Nat.zero_add] at hin hout
  exact ⟨_, load_of_length_le h _, hin, fun k hk => (hout k hk).trans (read_resetWith rInit k), rfl, rfl, rfl⟩

/-- A completed instruction that changes a byte of memory is PUSH or CALL, and the byte is the one at the new SP. -/
theorem Completes.push_or_call_of_read_ne {i : Instr} {s t : State} {a : Nat} (hc : Completes i s t)
    (hne : t.mem.read a ≠ s.mem.read a) : (∃ r, i = .push r ∨ i = .call r) ∧ a = (s.sp - 1#8).toNat := by
  obtain hmem | ⟨r, v, hi, hmem⟩ := hc.mem <;> rw [hmem] at hne
  · exact absurd rfl hne
  · exact ⟨⟨r, hi⟩, by_contra fun ha => hne (Memory.read_write_of_ne ha v)⟩

/-- Settles O38: of the instructions that complete, only PUSH and CALL write memory, and a fault keeps it. -/
theorem memoryWrittenOnlyByPushAndCall : Obligations.MemoryWrittenOnlyByPushAndCall := by
  intro s t a h hne
  cases (step_next_cases h).2 with
  | completed hd hc =>
    obtain ⟨⟨r, rfl | rfl⟩, ha⟩ := hc.push_or_call_of_read_ne hne
    · exact ⟨⟨r, .inl hd⟩, ha⟩
    · exact ⟨⟨r, .inr hd⟩, ha⟩
  | fetchFault | operandFault => exact absurd rfl hne

/-- PUSH of a register other than R7 leaves that register's byte at the new SP. -/
theorem read_of_exec_push {s t : State} {r : Byte} (h : r.toNat < 7) (hx : exec (.push r) s = .next t) :
    t.mem.read (s.sp - 1#8).toNat = s.reg ⟨r.toNat, by omega⟩ := by
  have hne : (⟨r.toNat, by omega⟩ : RegIndex) ≠ spReg := fun e => h.ne (congrArg Fin.val e)
  rw [exec_push_of_lt s (by omega)] at hx
  cases hx
  rw [State.updatePc_mem, State.setMem_mem, Memory.read_write_self, State.reg_setReg_of_ne hne]

/-- Settles O50: the decoded opcode is the byte at the pc, which is the byte that PUSH wrote. -/
theorem pushedByteIsFetchedNext : Obligations.PushedByteIsFetchedNext := by
  intro s t r i h hx hpc hd
  rw [← (fetchDecode_ok hd).2, hpc]
  exact read_of_exec_push h hx

/-- Settles O5, by the two ranges of a bounded read. -/
theorem memReadContract : Obligations.MemReadContract :=
  fun _ _ => ⟨fun h => memRead_of_lt (Nat.lt_succ_of_le h), memRead_of_ge⟩

/-- Settles O6, by the two ranges of a bounded write and read after write. -/
theorem memWriteContract : Obligations.MemWriteContract := by
  refine fun m addr v => ⟨fun h => ?_, fun h => memWrite_of_ge h v⟩
  refine ⟨_, memWrite_of_lt (Nat.lt_succ_of_le h) v, ?_, fun b hb => Memory.read_write_of_ne hb _⟩
  rw [Memory.read_write_self, BitVec.toNat_ofNat]

end Sys2Proof.Machine

namespace Sys2Proof

/-! ## The decoder and the encoder -/

/-- An instruction has as many operand bytes as its format. -/
theorem Instr.length_operands (i : Instr) : i.operands.length = i.mnemonic.format.operandBytes := by cases i <;> rfl

/-- The operand bytes of an instruction made of fields: the fields that the format has. -/
theorem Instr.operands_ofFields (m : Mnemonic) (a b : Byte) :
    (Instr.ofFields m a b).operands = [a, b].take m.format.operandBytes := by cases m <;> rfl

/-- An instruction is made of its own mnemonic and operand bytes, whatever bytes follow them. -/
theorem Instr.ofFields_operands (i : Instr) (rest : List Byte) :
    Instr.ofFields i.mnemonic ((i.operands ++ rest).getD 0 0x00#8) ((i.operands ++ rest).getD 1 0x00#8) = i := by
  cases i <;> rfl

/-- No format has more than two operand bytes (30_encoding.md R84). -/
theorem Format.operandBytes_le (f : Format) : f.operandBytes ≤ 2 := by cases f <;> decide

/-- At most two bytes from the head of a list are its first two fields. -/
theorem take_fields : ∀ {bs : List Byte} {n : Nat}, n ≤ 2 → n ≤ bs.length →
    [bs.getD 0 0x00#8, bs.getD 1 0x00#8].take n = bs.take n
  | _, 0, _, _ => rfl
  | _ :: _, 1, _, _ => rfl
  | _ :: _ :: _, 2, _, _ => rfl

/-- What the decoder accepts, and what it then answers: an opcode of the catalog with all the operand bytes of its
format (30_encoding.md R86, R95). -/
theorem decode_cons_eq_ok_iff {op : Byte} {bs rest : List Byte} {i : Instr} :
    decode (op :: bs) = .ok (i, rest) ↔
      ∃ m, op = opcode m ∧ m.format.operandBytes ≤ bs.length ∧
        Instr.ofFields m (bs.getD 0 0x00#8) (bs.getD 1 0x00#8) = i ∧ bs.drop m.format.operandBytes = rest := by
  constructor
  · intro h
    rw [decode] at h
    split at h
    · cases h
    · split at h
      · cases h
      · next hlen =>
        split at h
        · cases h
        · next m hm =>
          cases h
          obtain rfl := opcode_of_catalog hm
          rw [operandCount_opcode] at hlen ⊢
          exact ⟨m, rfl, Nat.le_of_not_lt hlen, rfl, rfl⟩
  · rintro ⟨m, rfl, hlen, rfl, rfl⟩
    rw [decode, if_neg (operandCount_opcode_lt m).ne, operandCount_opcode, if_neg hlen.not_gt, catalog_opcode]

/-- Settles O27: the opcode gives back the mnemonic, and its format takes the operand bytes and leaves the rest. -/
theorem decodeOfEncode : Obligations.DecodeOfEncode := by
  intro i rest
  have hlen : i.mnemonic.format.operandBytes ≤ (i.operands ++ rest).length := by
    rw [List.length_append, i.length_operands]
    exact Nat.le_add_right ..
  exact decode_cons_eq_ok_iff.2
    ⟨i.mnemonic, rfl, hlen, i.ofFields_operands rest, List.drop_left' i.length_operands⟩

/-- Settles O28: the accepted bytes are the opcode, the operand bytes of its format, and the rest. -/
theorem onlyEncodingsDecode : Obligations.OnlyEncodingsDecode := by
  intro bs i rest h
  cases bs with
  | nil => cases h
  | cons op bs =>
    obtain ⟨m, rfl, hlen, rfl, rfl⟩ := decode_cons_eq_ok_iff.1 h
    rw [encode, mnemonic_ofFields, Instr.operands_ofFields, take_fields m.format.operandBytes_le hlen, List.cons_append,
      List.take_append_drop]

/-- Settles O29: the five words are closed, and the decoder computes. -/
theorem tableWordsDecode : Obligations.TableWordsDecode :=
  ⟨by decide, by decide, by decide, by decide, by decide⟩

end Sys2Proof

namespace Sys2Proof.Machine

/-! ## The step and what it fetched -/

/-- Bytes that are fetched and decode to an instruction are what fetch and decode answer together. -/
theorem fetchDecode_of_decode {s : State} {bs rest : List Byte} {i : Instr} (hf : fetch s = .ok bs)
    (hd : decode bs = .ok (i, rest)) : fetchDecode s = .ok i := by
  simp only [fetchDecode, hf, hd]

/-- Settles O30: those bytes are what the step fetches and decodes. -/
theorem stepRunsTheDecodedInstruction : Obligations.StepRunsTheDecodedInstruction :=
  fun _ _ _ _ hr hf hd => step_of_fetchDecode hr (fetchDecode_of_decode hf hd)

/-- An instruction that lies whole in memory at the pc is fetched byte for byte, with no byte beyond it
(30_encoding.md R96 to R98). -/
theorem fetch_of_encode {s : State} {i : Instr} (hle : s.pc + (encode i).length ≤ Config.memSize)
    (hbytes : ∀ k (h : k < (encode i).length), s.mem.read (s.pc + k) = (encode i)[k]) : fetch s = .ok (encode i) := by
  have hlen : (encode i).length = i.operands.length + 1 := rfl
  have hop : s.mem.read s.pc = opcode i.mnemonic := hbytes 0 (by omega)
  have h3 : operandCount (opcode i.mnemonic) ≠ 3 := (operandCount_opcode_lt i.mnemonic).ne
  have hn : operandCount (opcode i.mnemonic) = i.operands.length := by rw [operandCount_opcode, i.length_operands]
  have hops : (List.range' (s.pc + 1) i.operands.length).map s.mem.read = i.operands := by
    refine List.ext_getElem (by simp) fun k _ hk => ?_
    rw [List.getElem_map, List.getElem_range', Nat.one_mul, Nat.add_assoc, Nat.add_comm 1]
    exact hbytes (k + 1) (Nat.succ_lt_succ hk)
  have hread : readBytes s.mem (s.pc + 1) i.operands.length = .ok i.operands := by
    rw [readBytes_of_le (by omega), hops]
  simp only [fetch, memRead_of_lt (show s.pc < Config.memSize by omega), hop, if_neg h3]
  simp only [hn, hread, encode]

/-- Settles O31: the fetch answers the encoding, which decodes to the instruction. -/
theorem stepRunsTheEncodedInstruction : Obligations.StepRunsTheEncodedInstruction := by
  intro s i hr hle hbytes
  have hd : decode (encode i) = .ok (i, []) := by simpa using decodeOfEncode i []
  exact stepRunsTheDecodedInstruction s _ i [] hr (fetch_of_encode hle hbytes) hd

/-! ## The register check -/

/-- The register check of a lone operand that names no register takes the fault (30_encoding.md R101). -/
theorem State.orFault_regOperand_of_illegal (s : State) {r b : Byte}
    (hb : ([r].find? fun b => !namesRegister b) = some b) (k : RegIndex → StepOutcome) :
    s.orFault (regOperand r) k = .next (s.faultedWith .memoryOutOfBounds b.toNat) := by
  obtain rfl : b = r := List.mem_singleton.1 (List.mem_of_find?_eq_some hb)
  rw [regOperand_of_ge (by simpa [namesRegister] using List.find?_some hb), State.orFault_error]
  rfl

/-- The ALU instructions check `a` before `b`, and take the fault on the first that names no register. -/
theorem aluInstr_of_illegal (op : AluOp) (m : Mnemonic) (s : State) {x y b : Byte}
    (hb : ([x, y].find? fun b => !namesRegister b) = some b) :
    aluInstr op m x y s = .next (s.faultedWith .memoryOutOfBounds b.toNat) := by
  by_cases hx : x.toNat < 8
  · rw [List.find?_cons_of_neg (by simpa [namesRegister] using hx)] at hb
    rw [aluInstr, regOperand_of_lt hx, State.orFault_ok]
    exact s.orFault_regOperand_of_illegal hb _
  · have hb : ([x].find? fun b => !namesRegister b) = some b := by simpa [namesRegister, Nat.le_of_not_lt hx] using hb
    exact s.orFault_regOperand_of_illegal hb _

/-- Settles O26: every handler checks its register operands first, in the order of `registerOperands`. -/
theorem illegalRegisterOperandFaults : Obligations.IllegalRegisterOperandFaults := by
  intro i s b hb
  cases i with
  | add x y => exact aluInstr_of_illegal .add .add s hb
  | mul x y => exact aluInstr_of_illegal .mul .mul s hb
  | cmp x y => exact aluInstr_of_illegal .cmp .cmp s hb
  | ldi | prn | push | pop | call | jmp | jeq | jne => exact s.orFault_regOperand_of_illegal hb _
  | ret | hlt => cases hb

/-! ## Every instruction answers -/

/-- Taking a fault is a next state, so a check answers one when what follows it does (60_exceptions.md R231). -/
theorem State.orFault_answers {α : Type} (s : State) (x : Except Raise α) {k : α → StepOutcome}
    (hk : ∀ a, ∃ t, k a = .next t) : ∃ t, s.orFault x k = .next t := by
  cases x with
  | ok a => exact hk a
  | error r => exact ⟨_, rfl⟩

/-- What ADD, MUL and CMP share is two register checks and the ALU's own. -/
theorem aluInstr_answers (op : AluOp) (m : Mnemonic) (a b : Byte) (s : State) : ∃ t, aluInstr op m a b s = .next t :=
  s.orFault_answers _ fun _ => s.orFault_answers _ fun _ => s.orFault_answers _ fun _ => ⟨_, rfl⟩

/-- What the jumps share is one register check, whether or not the jump is taken. -/
theorem jumpIf_answers (taken : Bool) (m : Mnemonic) (r : Byte) (s : State) : ∃ t, jumpIf taken m r s = .next t :=
  s.orFault_answers _ fun _ => ⟨_, rfl⟩

/-- Every instruction answers a next state: it is a chain of checks that ends in one. -/
theorem exec_answers (i : Instr) (s : State) : ∃ t, exec i s = .next t := by
  cases i with
  | ldi | prn | ret => exact s.orFault_answers _ fun _ => ⟨_, rfl⟩
  | push | pop | call => exact s.orFault_answers _ fun _ => s.orFault_answers _ fun _ => ⟨_, rfl⟩
  | add a b => exact aluInstr_answers .add .add a b s
  | mul a b => exact aluInstr_answers .mul .mul a b s
  | cmp a b => exact aluInstr_answers .cmp .cmp a b s
  | jmp r => exact jumpIf_answers true .jmp r s
  | jeq r => exact jumpIf_answers s.fl.e .jeq r s
  | jne r => exact jumpIf_answers (!s.fl.e) .jne r s
  | hlt => exact ⟨_, rfl⟩

/-- Settles O33: a RUNNING step is one more check, the fetch and decode, before an instruction. -/
theorem runningCoreAlwaysSteps : Obligations.RunningCoreAlwaysSteps := by
  refine ⟨exec_answers, fun s hr => ?_⟩
  rw [step, hr]
  exact s.orFault_answers _ fun i => exec_answers i s

end Sys2Proof.Machine

namespace Sys2Proof.Machine

/-! ## Load immediate and print -/

/-- A register write leaves every other register alone (10_state.md R21). -/
theorem sameRegsBut_setReg (s : State) (q : RegIndex) (v : Byte) : SameRegsBut [q] s (s.setReg q v) :=
  fun _ hp => State.reg_setReg_of_ne (List.ne_of_not_mem_cons hp)

/-- Settles O13: LDI is one register write and an advance of the pc. -/
theorem ldiLoadsTheImmediate : Obligations.LdiLoadsTheImmediate := by
  intro s r i h
  refine ⟨_, exec_ldi_of_lt s i h, ?result, ?frame, rfl, rfl, rfl, fun _ => rfl, rfl, rfl⟩
  case result => rw [State.reg_updatePc, State.reg_setReg_self]
  case frame => exact sameRegsBut_setReg s _ i

/-- Settles O14: PRN is one emission, of a register it only reads, and an advance of the pc. -/
theorem prnEmitsTheRegister : Obligations.PrnEmitsTheRegister :=
  fun s _ h => ⟨_, exec_prn_of_lt s h, rfl, fun _ _ => rfl, rfl, rfl, fun _ => rfl, rfl, rfl⟩

/-- Settles O49: PRN emits the register that LDI has just loaded, onto the log that LDI left as it was. -/
theorem prnAfterLdiEmitsTheImmediate : Obligations.PrnAfterLdiEmitsTheImmediate := by
  intro s r v h
  obtain ⟨t, hldi, hreg, -, -, -, hout, -⟩ := ldiLoadsTheImmediate s r v h
  obtain ⟨u, hprn, hemit, -⟩ := prnEmitsTheRegister t r h
  exact ⟨t, u, hldi, hprn, by rw [hemit, hreg, hout]⟩

end Sys2Proof.Machine

namespace Sys2Proof.Machine

/-! ## The ALU -/

/-- The ALU's sum is the addition of bytes, which wraps (41_alu.md R141). -/
theorem aluAdd_eq (a b : Byte) : aluAdd a b = a + b := rfl

/-- The ALU's product is the multiplication of bytes, which wraps (41_alu.md R142). -/
theorem aluMultiply_eq (a b : Byte) : aluMultiply a b = a * b := rfl

theorem toNat_aluAdd (a b : Byte) : (aluAdd a b).toNat = (a.toNat + b.toNat) % 256 := BitVec.toNat_ofNat _ _

theorem toNat_aluMultiply (a b : Byte) : (aluMultiply a b).toNat = (a.toNat * b.toNat) % 256 :=
  BitVec.toNat_ofNat _ _

/-- Each flag of the compare says its own unsigned relation (41_alu.md R143). -/
theorem compareFlags_eq (a b : Byte) : compareFlags a b =
    ⟨decide (a.toNat = b.toNat), decide (b.toNat < a.toNat), decide (a.toNat < b.toNat)⟩ := by
  unfold compareFlags
  obtain h | h | h := Nat.lt_trichotomy a.toNat b.toNat
  · simp [h, h.ne, h.not_gt]
  · simp [h]
  · simp [h, h.ne', h.not_gt]

/-- Settles O8, by the sum modulo 256. -/
theorem aluAddIsSumModulo256 : Obligations.AluAddIsSumModulo256 :=
  fun a b => ⟨_, alu_add a b, toNat_aluAdd a b⟩

/-- Settles O9: narrowing the 16-bit product to a byte is the product of the bytes. -/
theorem aluMultiplyIsLowByteOfProduct : Obligations.AluMultiplyIsLowByteOfProduct := by
  refine fun a b => ⟨_, alu_mul a b, toNat_aluMultiply a b, ?_⟩
  have hlow : (a.setWidth 16 * b.setWidth 16).setWidth 8 = a * b := by
    rw [BitVec.setWidth_mul _ _ (by decide), BitVec.setWidth_setWidth_of_le _ (by decide), BitVec.setWidth_eq,
      BitVec.setWidth_setWidth_of_le _ (by decide), BitVec.setWidth_eq]
  rw [aluMultiply_eq, ← hlow, BitVec.setWidth_eq_extractLsb' (by decide)]

/-- Settles O10: the three relations exclude each other, so the flags of each are read off `compareFlags_eq`. -/
theorem aluCompareSetsExactlyOneFlag : Obligations.AluCompareSetsExactlyOneFlag := by
  refine fun a b => ⟨_, alu_cmp a b, compareFlags_count a b, fun h => ?equal, fun h => ?greater, fun h => ?less⟩
  case equal => simp [compareFlags_eq, h]
  case greater => simp [compareFlags_eq, h, h.ne', h.le]
  case less => simp [compareFlags_eq, h, h.ne, h.le]

/-- Settles O12, by the ring of bytes; `256 - k` is the byte `-k`. -/
theorem aluArithmeticLaws : Obligations.AluArithmeticLaws := by
  refine ⟨fun a b => ?addComm, fun a b => ?mulComm, fun a => ?mulZero, fun a => ?mulOne, fun a k _ hk => ?decrement⟩
  case addComm => rw [aluAdd_eq, aluAdd_eq, BitVec.add_comm]
  case mulComm => rw [aluMultiply_eq, aluMultiply_eq, BitVec.mul_comm]
  case mulZero => rw [aluMultiply_eq, BitVec.mul_zero]
  case mulOne => rw [aluMultiply_eq, BitVec.mul_one]
  case decrement =>
    have hneg : BitVec.ofNat 8 (256 - k) = -BitVec.ofNat 8 k := by bv_omega
    rw [aluAdd_eq, hneg, BitVec.sub_eq_add_neg]

/-- No instruction raises UnsupportedALUOperation: one that completes keeps the fault record, and the only fault an
instruction takes is the register check's (60_exceptions.md R234). -/
theorem faultRecord_of_exec_unsupported {i : Instr} {s t : State} {r : FaultRecord} (h : exec i s = .next t)
    (ht : t.faultRecord = some r) (hr : r.kind = .unsupportedALUOperation) : s.faultRecord = some r := by
  obtain ⟨c, -, -, rfl⟩ | hc := exec_next_cases h
  · rw [State.raise_faultRecord] at ht
    cases ht
    cases hr
  · rwa [← hc.faultRecord]

/-- Settles O11: the ALU answers every other select with the fault, and no instruction takes it. -/
theorem unsupportedAluOperationNeverRaised : Obligations.UnsupportedAluOperationNeverRaised :=
  ⟨fun _ _ _ => rfl, fun _ _ _ _ => faultRecord_of_exec_unsupported⟩

/-! ## ADD, MUL and CMP -/

/-- One register write and an advance of the pc: the register written, and everything else as it was. -/
theorem setReg_advance_frame (s : State) (q : RegIndex) (v : Byte) (n : Nat) {t : State}
    (ht : t = (s.setReg q v).updatePc (.advance n)) :
    t.reg q = v ∧ SameRegsBut [q] s t ∧ t.pc = s.pc + n ∧ t.fl = s.fl ∧ t.out = s.out ∧ SameMemory s t ∧
      SameRun s t := by
  subst ht
  exact ⟨State.reg_setReg_self s q v, sameRegsBut_setReg s q v, rfl, rfl, rfl, fun _ => rfl, rfl, rfl⟩

/-- Settles O15: ADD is one register write, of the sum of the old values, and an advance of the pc. -/
theorem addWritesTheSum : Obligations.AddWritesTheSum := by
  intro s a b ha hb
  obtain ⟨hreg, hframe⟩ := setReg_advance_frame s ⟨a.toNat, ha⟩ _ 3 rfl
  exact ⟨_, exec_add_of_lt s ha hb, by rw [hreg, toNat_aluAdd], hframe⟩

/-- Settles O16: MUL is one register write, of the product of the old values, and an advance of the pc. -/
theorem mulWritesTheProduct : Obligations.MulWritesTheProduct := by
  intro s a b ha hb
  obtain ⟨hreg, hframe⟩ := setReg_advance_frame s ⟨a.toNat, ha⟩ _ 3 rfl
  exact ⟨_, exec_mul_of_lt s ha hb, by rw [hreg, toNat_aluMultiply], hframe⟩

/-- Settles O17: CMP is one write of `FL`, by a compare of two registers it only reads, and an advance of the pc. -/
theorem cmpWritesOneFlag : Obligations.CmpWritesOneFlag := by
  intro s a b ha hb
  have hfl := compareFlags_eq (s.reg ⟨a.toNat, ha⟩) (s.reg ⟨b.toNat, hb⟩)
  exact ⟨_, exec_cmp_of_lt s ha hb, congrArg Flags.e hfl, congrArg Flags.g hfl, congrArg Flags.l hfl, fun _ _ => rfl, rfl,
    rfl, fun _ => rfl, rfl, rfl⟩

end Sys2Proof.Machine

namespace Sys2Proof.Machine

/-! ## The stack -/

theorem toNat_sub_one (b : Byte) : (b - 1#8).toNat = (b.toNat + 255) % 256 := by bv_omega

/-- What a register operand reads after a write of the stack pointer: R7 is the only one that sees it (decision D10). -/
theorem State.reg_setReg_spReg (s : State) (v : Byte) {r : Byte} (h : r.toNat < 8) :
    (s.setReg spReg v).reg ⟨r.toNat, h⟩ = if r.toNat = 7 then v else s.reg ⟨r.toNat, h⟩ := by
  rw [State.reg_setReg]
  exact if_congr Fin.ext_iff rfl rfl

@[simp] theorem State.sp_updatePc (s : State) (sel : PcSel) : (s.updatePc sel).sp = s.sp := rfl

@[simp] theorem State.sp_setReg_spReg (s : State) (v : Byte) : (s.setReg spReg v).sp = v :=
  State.reg_setReg_self s spReg v

theorem State.sp_setReg_of_ne {s : State} {q : RegIndex} {v : Byte} (h : q ≠ spReg) : (s.setReg q v).sp = s.sp :=
  State.reg_setReg_of_ne h.symm

/-- The write half of the pop primitive leaves SP one up, modulo 256 (42_stack.md R172). -/
theorem State.toNat_sp_stackDrop (s : State) : s.stackDrop.sp.toNat = (s.sp.toNat + 1) % 256 := by
  rw [State.stackDrop_eq, State.sp_setReg_spReg]
  exact BitVec.toNat_add s.sp 1#8

/-- Settles O18: PUSH is one write of SP, one byte written at it, and an advance of the pc. -/
theorem pushStoresAtTheNewStackPointer : Obligations.PushStoresAtTheNewStackPointer := by
  intro s r h
  have hsp : (s.setReg spReg (s.sp - 1#8)).sp = s.sp - 1#8 := State.sp_setReg_spReg s _
  refine ⟨_, exec_push_of_lt s h, ?sp, hsp.symm, ?stored, fun b hb => ?memory, ?frame, rfl, rfl, rfl, rfl, rfl⟩
  case sp => exact (congrArg BitVec.toNat hsp).trans (toNat_sub_one s.sp)
  case stored =>
    refine (Memory.read_write_self ..).trans ((State.reg_setReg_spReg s _ h).trans ?_)
    exact if_congr Iff.rfl hsp.symm rfl
  case memory => exact Memory.read_write_of_ne hb _
  case frame => exact sameRegsBut_setReg s spReg _

/-- Settles O19: POP writes its register, then SP from the value it has by then, so POP R7 counts up the popped byte. -/
theorem popLoadsFromTheStackPointer : Obligations.PopLoadsFromTheStackPointer := by
  intro s r h
  refine ⟨_, exec_pop_of_lt s h, ?result, fun q hq => ?frame, fun _ => rfl, rfl, rfl, rfl, rfl, rfl⟩
  case result =>
    rw [State.sp_updatePc, State.reg_updatePc, State.toNat_sp_stackDrop]
    split
    · next h7 =>
      have hq : (⟨r.toNat, h⟩ : RegIndex) = spReg := Fin.ext h7
      rw [hq, State.sp_setReg_spReg]
    · next h7 =>
      have hne : (⟨r.toNat, h⟩ : RegIndex) ≠ spReg := fun e => h7 (congrArg Fin.val e)
      rw [State.stackDrop_eq, State.reg_setReg_of_ne hne, State.reg_setReg_self, State.sp_setReg_of_ne hne]
      exact ⟨rfl, rfl⟩
  case frame =>
    obtain ⟨hr, hsp⟩ : q ≠ ⟨r.toNat, h⟩ ∧ q ≠ spReg := by simpa [spReg] using hq
    rw [State.reg_updatePc, State.stackDrop_eq, State.reg_setReg_of_ne hsp, State.reg_setReg_of_ne hr]

/-- Settles O47: POP reads the byte that PUSH stored, at the SP that PUSH left, and counts SP up again. -/
theorem popUndoesPush : Obligations.PopUndoesPush := by
  intro s r1 r2 h1 h2
  obtain ⟨t, hpush, htsp, haddr, hstored, -, htregs, htpc, -⟩ := pushStoresAtTheNewStackPointer s r1 (by omega)
  obtain ⟨u, hpop, hresult, huregs, -, hupc, -⟩ := popLoadsFromTheStackPointer t r2 (by omega)
  rw [if_neg h1.ne, haddr] at hstored
  rw [if_neg h2.ne] at hresult
  obtain ⟨hreg, husp⟩ := hresult
  have hsp : u.sp = s.sp := by bv_omega
  refine ⟨t, u, hpush, hpop, hreg.trans hstored, hsp, fun q hq => ?_, by omega⟩
  by_cases h7 : q = 7
  · subst h7
    exact hsp
  · exact (huregs q (by simpa [h7] using hq)).trans (htregs q (by simpa using h7))

end Sys2Proof.Machine

namespace Sys2Proof.Machine

/-! ## Control transfer and halt -/

/-- Settles O41: a core that is HALTED took no fault and completed HLT; and HLT has no operand to check, so it always
halts. -/
theorem onlyHltHalts : Obligations.OnlyHltHalts := by
  intro s t h
  constructor
  · intro ht
    obtain ⟨hr, hend⟩ := step_next_cases h
    cases hend with
    | completed hd hc => rwa [hc.eq_hlt hr ht] at hd
    | fetchFault | operandFault => cases ht
  · intro hd
    rw [step_of_fetchDecode (running_of_step_next h) hd, exec_hlt] at h
    cases h
    rfl

/-- A conditional jump's program counter: the target where it is taken, the next instruction where not
(30_encoding.md R100). -/
theorem nextPc_ite (c : Prop) [Decidable c] (v : Byte) (n p : Nat) :
    nextPc (if c then .target v else .advance n) p = if c then v.toNat else p + n :=
  apply_ite (nextPc · p) c _ _

/-- Settles O20: CALL is one write of SP, one byte written at it, and a jump to a register read after that write. -/
theorem callPushesTheReturnAddress : Obligations.CallPushesTheReturnAddress := by
  intro s r h
  have hsp : (s.setReg spReg (s.sp - 1#8)).sp = s.sp - 1#8 := State.sp_setReg_spReg s _
  refine ⟨_, exec_call_of_lt s h, ?target, ?sp, hsp.symm, ?stored, fun b hb => ?memory, ?frame, rfl, rfl, rfl, rfl⟩
  case target =>
    refine congrArg BitVec.toNat ((State.reg_setReg_spReg s _ h).trans ?_)
    exact if_congr Iff.rfl hsp.symm rfl
  case sp => exact (congrArg BitVec.toNat hsp).trans (toNat_sub_one s.sp)
  case stored => exact (congrArg BitVec.toNat (Memory.read_write_self ..)).trans (BitVec.toNat_ofNat ..)
  case memory => exact Memory.read_write_of_ne hb _
  case frame => exact sameRegsBut_setReg s spReg _

/-- Settles O21: RET is a jump to the byte at SP, and one write of SP. -/
theorem retPopsTheProgramCounter : Obligations.RetPopsTheProgramCounter :=
  fun s => ⟨_, exec_ret s, rfl, s.toNat_sp_stackDrop, sameRegsBut_setReg s spReg _, fun _ => rfl, rfl, rfl, rfl, rfl⟩

/-- Settles O22: JMP is one write of the pc, from a register it only reads. -/
theorem jmpTakesTheRegister : Obligations.JmpTakesTheRegister :=
  fun s _ h => ⟨_, exec_jmp_of_lt s h, rfl, fun _ _ => rfl, fun _ => rfl, rfl, rfl, rfl, rfl⟩

/-- Settles O23: JEQ is one write of the pc, which takes the register where Equal is set. -/
theorem jeqJumpsExactlyWhenEqual : Obligations.JeqJumpsExactlyWhenEqual :=
  fun s _ h => ⟨_, exec_jeq_of_lt s h, nextPc_ite .., fun _ _ => rfl, fun _ => rfl, rfl, rfl, rfl, rfl⟩

/-- Settles O24: JNE is one write of the pc, which takes the register where Equal is clear. -/
theorem jneJumpsExactlyWhenNotEqual : Obligations.JneJumpsExactlyWhenNotEqual := by
  intro s r h
  refine ⟨_, exec_jne_of_lt s h, ?pc, fun _ _ => rfl, fun _ => rfl, rfl, rfl, rfl, rfl⟩
  case pc => exact (nextPc_ite ..).trans (if_congr (Bool.not_eq_true' _).to_iff rfl rfl)

/-- Settles O25: HLT writes the run state and holds the pc. -/
theorem hltHaltsAndHoldsThePc : Obligations.HltHaltsAndHoldsThePc :=
  fun s => ⟨_, exec_hlt s, rfl, rfl, fun _ _ => rfl, fun _ => rfl, rfl, rfl, rfl⟩

/-- Two instructions that write no register but SP, and together restore it, change no register. -/
theorem sameRegsBut_nil_of_sp_eq {s t u : State} (hst : SameRegsBut [7] s t) (htu : SameRegsBut [7] t u)
    (hsp : u.sp = s.sp) : SameRegsBut [] s u := by
  intro q _
  by_cases h7 : q = 7
  · subst h7
    exact hsp
  · have hq : q ∉ ([7] : List RegIndex) := by simpa using h7
    exact (htu q hq).trans (hst q hq)

/-- Settles O48: RET reads the byte that CALL stored, at the SP that CALL left, and counts SP up again. -/
theorem retReturnsAfterCall : Obligations.RetReturnsAfterCall := by
  intro s r h
  obtain ⟨t, hcall, -, htsp, haddr, hstored, -, htregs, -⟩ := callPushesTheReturnAddress s r h
  obtain ⟨u, hret, hupc, husp, huregs, -⟩ := retPopsTheProgramCounter t
  rw [haddr] at hstored
  have hsp : u.sp = s.sp := by bv_omega
  exact ⟨t, u, hcall, hret, hupc.trans hstored, hsp, sameRegsBut_nil_of_sp_eq htregs huregs hsp⟩

end Sys2Proof.Machine

namespace Sys2Proof.Machine

/-! ## Execution faults -/

/-- Settles O35: an instruction that completes does not fault, so the step took a fault, which is `State.raise`. -/
theorem faultsArePrecise : Obligations.FaultsArePrecise := by
  intro s t h ht
  obtain ⟨hr, hend⟩ := step_next_cases h
  cases hend with
  | completed hd hc => exact absurd ht (hc.runState_ne_faulted hr)
  | fetchFault | operandFault => exact ⟨rfl, rfl, rfl, rfl, rfl, _, _, rfl⟩

section

variable {s : State}

/-- The step of a RUNNING core takes the fault of its fetch and decode (60_exceptions.md R231). -/
theorem step_of_fetchDecode_error {e : Raise} (hr : s.runState = .running) (hd : fetchDecode s = .error e) :
    step s = .next (s.faultedWith e.kind e.context) := by
  simp only [step, hr, hd, State.orFault_error]
  rfl

/-- A fault of the fetch is the fault of fetch and decode together. -/
theorem fetchDecode_of_fetch_error {e : Raise} (hf : fetch s = .error e) : fetchDecode s = .error e := by
  simp only [fetchDecode, hf]

/-- A range that starts in memory or just past it, and goes on past it, faults at the first address outside
(30_encoding.md R98). -/
theorem readBytes_of_gt {m : Memory} {a k : Nat} (ha : a ≤ Config.memSize) (h : Config.memSize < a + k) :
    readBytes m a k = .error ⟨.memoryOutOfBounds, Config.memSize⟩ := by
  induction k generalizing a with
  | zero => omega
  | succ k ih =>
    obtain rfl | hlt := ha.eq_or_lt
    · simp only [readBytes, memRead_of_ge le_rfl]
    · simp only [readBytes, memRead_of_lt hlt, ih hlt (by omega)]

/-- The opcode's own fetch faults outside memory (30_encoding.md R96). -/
theorem fetch_of_pc_ge (h : Config.memSize ≤ s.pc) : fetch s = .error ⟨.memoryOutOfBounds, s.pc⟩ := by
  simp only [fetch, memRead_of_ge h]

/-- Bits 7:6 = 11 fault before any operand byte is fetched (30_encoding.md R97). -/
theorem fetch_of_operandCount_eq_three (hpc : s.pc < Config.memSize) (h3 : operandCount (s.mem.read s.pc) = 3) :
    fetch s = .error ⟨.unknownOpcode, (s.mem.read s.pc).toNat⟩ := by
  simp only [fetch, memRead_of_lt hpc, if_pos h3]

/-- An operand byte past the end of memory faults (30_encoding.md R98). -/
theorem fetch_of_overrun (hpc : s.pc < Config.memSize) (h3 : operandCount (s.mem.read s.pc) ≠ 3)
    (h : Config.memSize < s.pc + instrLength (s.mem.read s.pc)) :
    fetch s = .error ⟨.memoryOutOfBounds, Config.memSize⟩ := by
  rw [instrLength_eq] at h
  have hread : readBytes s.mem (s.pc + 1) (operandCount (s.mem.read s.pc)) =
      .error ⟨.memoryOutOfBounds, Config.memSize⟩ := readBytes_of_gt hpc (by omega)
  simp only [fetch, memRead_of_lt hpc, if_neg h3, hread]

/-- An instruction that ends inside memory is fetched whole. -/
theorem fetch_of_fits (h3 : operandCount (s.mem.read s.pc) ≠ 3)
    (h : s.pc + instrLength (s.mem.read s.pc) ≤ Config.memSize) :
    fetch s = .ok (s.mem.read s.pc ::
      (List.range' (s.pc + 1) (operandCount (s.mem.read s.pc))).map s.mem.read) := by
  rw [instrLength_eq] at h
  simp only [fetch, memRead_of_lt (show s.pc < Config.memSize by omega), if_neg h3,
    readBytes_of_le (show s.pc + 1 + operandCount (s.mem.read s.pc) ≤ Config.memSize by omega)]

/-- An instruction made of the bytes its format has is made of the first two, since it uses no others. -/
theorem ofFields_range' (m : Mnemonic) (f : Nat → Byte) (a : Nat) :
    Instr.ofFields m (((List.range' a (operandCount (opcode m))).map f).getD 0 0x00#8)
      (((List.range' a (operandCount (opcode m))).map f).getD 1 0x00#8) = Instr.ofFields m (f a) (f (a + 1)) := by
  rw [operandCount_opcode]
  cases m <;> rfl

/-- What an instruction that ends inside memory decodes to: the catalog lookup is all that is left
(30_encoding.md R99). -/
theorem fetchDecode_of_fits (h3 : operandCount (s.mem.read s.pc) ≠ 3)
    (h : s.pc + instrLength (s.mem.read s.pc) ≤ Config.memSize) :
    fetchDecode s = (catalog (s.mem.read s.pc)).elim (.error ⟨.unknownOpcode, (s.mem.read s.pc).toNat⟩) fun m =>
      .ok (Instr.ofFields m (s.mem.read (s.pc + 1)) (s.mem.read (s.pc + 2))) := by
  rw [fetchDecode_of_fetch (fetch_of_fits h3 h) (by simp) h3]
  cases hc : catalog (s.mem.read s.pc) with
  | none => rfl
  | some m =>
    rw [opcode_of_catalog hc]
    exact congrArg Except.ok (ofFields_range' m s.mem.read (s.pc + 1))

end

/-- Settles O32: each arm is what the fetch and decode answers under that arm's conditions. -/
theorem fetchFaultsInTheSpecOrder : Obligations.FetchFaultsInTheSpecOrder := by
  intro s hr hpc
  split_ifs with h256 h3 hover
  · rw [step_of_fetchDecode_error hr (fetchDecode_of_fetch_error (fetch_of_pc_ge h256.ge)), h256]
  · exact step_of_fetchDecode_error hr (fetchDecode_of_fetch_error
      (fetch_of_operandCount_eq_three (hpc.lt_of_ne h256) h3))
  · exact step_of_fetchDecode_error hr (fetchDecode_of_fetch_error
      (fetch_of_overrun (hpc.lt_of_ne h256) h3 hover))
  · have hd := fetchDecode_of_fits h3 (Nat.le_of_not_lt hover)
    cases hc : catalog (s.mem.read s.pc) with
    | none => exact step_of_fetchDecode_error hr (by rw [hd, hc, Option.elim_none])
    | some m => exact step_of_fetchDecode hr (by rw [hd, hc, Option.elim_some])

/-! ## The run -/

/-- A core that is not RUNNING takes no step: its run has ended, with any fuel (10_state.md R36). -/
theorem runLoop_of_not_running {s : State} (hr : s.runState ≠ .running) (k : Nat) : runLoop k s = .ended s := by
  cases k with
  | zero => rw [runLoop, if_neg hr]
  | succ k =>
    cases h : s.runState with
    | running => exact absurd h hr
    | halted | faulted => simp only [runLoop, step, h]

/-- A run goes on from where its first step ends. -/
theorem runLoop_of_step {s u : State} (h : step s = .next u) (k : Nat) : runLoop (k + 1) s = runLoop k u := by
  rw [runLoop, h]

/-- Where a run ends the core is not RUNNING, and more fuel ends it there too. -/
theorem runLoop_ended {k : Nat} {s t : State} (h : runLoop k s = .ended t) :
    t.runState ≠ .running ∧ ∀ j, runLoop (k + j) s = .ended t := by
  induction k generalizing s with
  | zero =>
    rw [runLoop] at h
    split at h
    · cases h
    · next hr =>
      cases h
      exact ⟨hr, fun j => runLoop_of_not_running hr _⟩
  | succ k ih =>
    by_cases hr : s.runState = .running
    · obtain ⟨u, hstep⟩ := runningCoreAlwaysSteps.2 s hr
      rw [runLoop_of_step hstep] at h
      obtain ⟨ht, hfuel⟩ := ih h
      refine ⟨ht, fun j => ?_⟩
      rw [Nat.add_right_comm, runLoop_of_step hstep, hfuel j]
    · rw [runLoop_of_not_running hr] at h
      cases h
      exact ⟨hr, fun j => runLoop_of_not_running hr _⟩

/-- Settles O51: `run` is the loop from the core set RUNNING. -/
theorem runEndDoesNotDependOnFuel : Obligations.RunEndDoesNotDependOnFuel :=
  fun _ _ _ h => runLoop_ended h

end Sys2Proof.Machine

namespace Sys2Proof.Machine

/-! ## Reset and load against the invariant -/

/-- Another canonical memory keeps the invariant, which says nothing else of memory. -/
theorem State.Inv.setMem {s : State} (hs : s.Inv) {m : Memory} (hm : m.wf) : (s.setMem m).Inv :=
  { hs with mem_wf := hm }

/-- Settles O44: reset is a RUNNING core at pc 0 with no flag set, no fault record and no byte listed. -/
theorem resetMeetsTheMachineInvariant : Obligations.ResetMeetsTheMachineInvariant := fun _ =>
  { mem_wf := Memory.wf_nil
    pc_le := Nat.zero_le _
    halted_pc := nofun
    one_flag := Nat.zero_le _
    record_iff := ⟨nofun, nofun⟩
    record_legal := nofun }

/-- Settles O45: a load that answers a state only placed bytes in memory, which keeps the memory canonical. -/
theorem loadKeepsTheMachineInvariant : Obligations.LoadKeepsTheMachineInvariant := by
  intro bytes s t hs h
  obtain hlen | hlen := Nat.lt_or_ge Config.memSize bytes.length
  · rw [load_of_length_gt hlen] at h
    cases h
  · rw [load_of_length_le hlen] at h
    cases h
    exact hs.setMem (wf_placeBytes hs.mem_wf 0 bytes)

/-! ## The host's protocol (70_reset_and_hazards.md R267) -/

/-- A run ends in a core that is not RUNNING. -/
theorem runState_of_run_ended {fuel : Nat} {s t : State} (h : run fuel s = .ended t) : t.runState ≠ .running :=
  (runLoop_ended h).1

/-- The end of a run can be read exactly when the core is not RUNNING. -/
theorem State.report_isSome_iff (s : State) : s.report.isSome ↔ s.runState ≠ .running := by
  rw [State.report]
  split_ifs with hr <;> simp [hr]

namespace Session

/-- A freshly constructed session moves on a load, to `loaded` or to `loadFailed`; no other session does. -/
theorem load_isSome_iff (h : Session) (bytes : List Byte) : (h.load bytes).isSome ↔ h.phase = .constructed := by
  obtain ⟨phase, core⟩ := h
  cases phase with
  | constructed => cases hl : Machine.load bytes core <;> simp [Session.load, hl]
  | loaded | loadFailed | finished => exact ⟨nofun, nofun⟩

/-- A program too large ends the protocol and leaves the core as it was (R263). -/
theorem load_of_length_gt {h : Session} {bytes : List Byte} (hp : h.phase = .constructed)
    (hlen : Config.memSize < bytes.length) : h.load bytes = some { h with phase := .loadFailed } := by
  simp only [Session.load, hp, Machine.load_of_length_gt hlen]

/-- A session runs to an end exactly when it is loaded and its core's run ends within the fuel. -/
theorem run_eq_some_iff {h h' : Session} {fuel : Nat} : h.run fuel = some h' ↔
    h.phase = .loaded ∧ ∃ t, Machine.run fuel h.core = .ended t ∧ h' = ⟨.finished, t⟩ := by
  obtain ⟨phase, core⟩ := h
  cases phase with
  | loaded => cases hr : Machine.run fuel core <;> simp [Session.run, hr, eq_comm]
  | constructed | loadFailed | finished => exact ⟨nofun, nofun⟩

/-- No session but a loaded one runs. -/
theorem run_of_phase_ne {h : Session} (hp : h.phase ≠ .loaded) (fuel : Nat) : h.run fuel = none :=
  Option.eq_none_iff_forall_ne_some.2 fun _ hr => hp (run_eq_some_iff.1 hr).1

/-- The end state is read exactly after the run, of a core that is not RUNNING. -/
theorem read_isSome_iff (h : Session) : h.read.isSome ↔ h.phase = .finished ∧ h.core.runState ≠ .running := by
  obtain ⟨phase, core⟩ := h
  cases phase with
  | finished => simp [Session.read, State.report_isSome_iff]
  | constructed | loaded | loadFailed => exact ⟨nofun, nofun⟩

end Session

/-- Settles O3: each host call moves in one phase only, and a run that ends leaves a core that is not RUNNING. -/
theorem hostProtocolHasOnlyTheSpecMoves : Obligations.HostProtocolHasOnlyTheSpecMoves := by
  refine ⟨Session.load_isSome_iff, fun rInit bytes fuel hlen => ?_, fun h h' fuel hrun => ?_, fun h hread => ?_⟩
  · exact ⟨_, Session.load_of_length_gt rfl hlen, rfl, Session.run_of_phase_ne (by simp) fuel⟩
  · obtain ⟨hp, t, ht, rfl⟩ := Session.run_eq_some_iff.1 hrun
    have hend := runState_of_run_ended ht
    exact ⟨hp, rfl, hend, (Session.read_isSome_iff _).2 ⟨rfl, hend⟩⟩
  · exact ((Session.read_isSome_iff h).1 hread).1

end Sys2Proof.Machine

namespace Sys2Proof.Machine

/-! ## Reads against the canonical form (log entry 7) -/

/-- With addresses strictly rising, a listed byte is the one its address reads as: no earlier entry hides it. -/
theorem Memory.read_of_mem {m : Memory} (hs : m.Pairwise fun c d => c.1 < d.1) {c : Host.Cell} (hc : c ∈ m) :
    m.read c.1 = c.2 := by
  induction m with
  | nil => cases hc
  | cons d m ih =>
    have ⟨hd, hm⟩ := List.pairwise_cons.1 hs
    rcases List.mem_cons.1 hc with rfl | hc
    · exact if_pos rfl
    · exact (if_neg (hd c hc).ne).trans (ih hm hc)

/-- An address that does not read as an unlisted one is listed, with the byte it reads as. -/
theorem Memory.mem_of_read_ne {m : Memory} {a : Nat} (h : m.read a ≠ Config.unlistedByte) : (a, m.read a) ∈ m := by
  induction m with
  | nil => exact absurd rfl h
  | cons c m ih =>
    rw [Memory.read] at h ⊢
    split_ifs at h ⊢ with hca
    · exact hca ▸ List.mem_cons_self
    · exact List.mem_cons_of_mem c (ih h)

/-- A canonical memory lists exactly the addresses that do not read as an unlisted one, so its reads fix its entries. -/
theorem Memory.mem_iff_read {m : Memory} (hm : m.wf) {c : Host.Cell} :
    c ∈ m ↔ m.read c.1 = c.2 ∧ c.2 ≠ Config.unlistedByte := by
  constructor
  · exact fun hc => ⟨Memory.read_of_mem hm.1 hc, (hm.2 c hc).2⟩
  · rintro ⟨hr, hne⟩
    have hmem := Memory.mem_of_read_ne (hr ▸ hne)
    rwa [hr] at hmem

/-- Settles O7: the reads fix the entries, and the rising addresses fix their order. -/
theorem canonicalMemoriesEqualByReads : Obligations.CanonicalMemoriesEqualByReads := by
  intro m m' hm hm' hread
  have hmem : ∀ c, c ∈ m ↔ c ∈ m' := fun c => by
    rw [Memory.mem_iff_read hm, Memory.mem_iff_read hm', hread]
  have : Std.Irrefl fun c d : Host.Cell => c.1 < d.1 := ⟨fun c => lt_irrefl c.1⟩
  have : Std.Antisymm fun c d : Host.Cell => c.1 < d.1 := ⟨fun _ _ h h' => absurd h h'.asymm⟩
  exact hm.1.eq_of_mem_iff hm'.1 hmem

end Sys2Proof.Machine
